-- ==== Sys2Proof/Word.lean ====
section
/-! DEFINITION. The two number types of the block (rule R10): bytes and 64-bit words. -/

namespace Sys2Proof

/-- A byte is 8 bits (R10). -/
abbrev Byte := BitVec 8

/-- A word is a 64-bit unsigned value; bit 0 is its least significant bit (R10, parameter `W` of R8). -/
abbrev Word := BitVec 64

end Sys2Proof
end

