-- ==== Sys2Proof/Syntax.lean ====
section
/-! DEFINITION. The operations (one constructor per row of spec/opcode_table.json, R60), the select words of the
five formats (R59), and the reasons a select word is rejected (R64). -/

namespace Sys2Proof

/-- The operations of the block, in the order of R60. Operand fields are as wide as their format gives them. -/
inductive Instr where
  /-- `ADDC i`, constant addition with round index `i` (R68). -/
  | addc (i : BitVec 4)
  /-- `SUBS`, substitution layer (R69). -/
  | subs
  /-- `DIFF`, linear diffusion layer (R73). -/
  | diff
  /-- `ROUND i`, one permutation round with round index `i` (R75). -/
  | round (i : BitVec 4)
  /-- `PERM r`, the permutation with round count `r` (R76, R77). -/
  | perm (r : BitVec 4)
  /-- `B2W`, bytes to word (R83). -/
  | b2w
  /-- `W2B`, word to bytes (R84). -/
  | w2b
  /-- `ROTR n`, 64-bit rotation (R86). -/
  | rotr (n : BitVec 6)
  /-- `COMPUTE_TAG`, the host command (R91). -/
  | computeTag
  /-- `IDLE`, the phase after reset (R98). -/
  | idle
  /-- `INIT`, keyed initialisation (R93). -/
  | init
  /-- `ABSORB_FULL`, the loop over complete blocks (R94). -/
  | absorbFull
  /-- `ABSORB_FINAL`, the padded final block (R95). -/
  | absorbFinal
  /-- `SQUEEZE`, tag extraction (R96). -/
  | squeeze
  /-- `DONE`, terminal for the computation (R97). -/
  | done
deriving DecidableEq, Repr

/-- The five formats of R59. -/
inductive Format where
  | hostcmd
  | phase
  | engreq
  | rstep
  | codec
deriving DecidableEq, Repr

/-- A select word: the bits presented at one of the block's five selects, in its format's width (R59). -/
inductive Select where
  /-- The value written to `CMD`, `op[7:0]`. -/
  | hostcmd (op : BitVec 8)
  /-- The code in the `phase` register, `ph[2:0]`. -/
  | phase (ph : BitVec 3)
  /-- The driver-to-engine request, `r[3:0]`. -/
  | engreq (r : BitVec 4)
  /-- The round controller's step select, `l[5:4]`, `i[3:0]`. -/
  | rstep (c : BitVec 6)
  /-- The codec's function select, `f[7:6]`, `n[5:0]`. -/
  | codec (c : BitVec 8)
deriving DecidableEq, Repr

/-- Why a select word stands for no operation, one name for each row of R64. -/
inductive DecodeError where
  /-- `HOSTCMD` `0x00`, `0x02`–`0xff`. -/
  | reservedCommand (op : BitVec 8)
  /-- `PHASE` 6, 7. -/
  | reservedPhase (ph : BitVec 3)
  /-- `ENGREQ` `r = 0, 13, 14, 15`. -/
  | roundCountOutOfRange (r : BitVec 4)
  /-- `RSTEP` `i = 12..15` with `l = 0` or `l = 3`. -/
  | roundIndexOutOfRange (i : BitVec 4)
  /-- `CODEC` `f = 3`. -/
  | reservedCodec (n : BitVec 6)
deriving DecidableEq, Repr

/-- What the decoder answers. -/
inductive Decoded where
  | ok (i : Instr)
  | rejected (e : DecodeError)
deriving DecidableEq, Repr

end Sys2Proof
end

