-- ==== Sys2Proof/WellFormed.lean ====
section
/-! DEFINITION. Which operands the spec calls legal (column "legal" of spec/opcode_table.json, R64). -/

namespace Sys2Proof

/-- The legal operands: a round index is 0..11 (R68, R75), a round count 1..12 (R76, R78); every amount of `ROTR`
is legal (R86), and no other operation has an operand. -/
def Instr.wellFormed : Instr → Bool
  | .addc i => decide (i.toNat ≤ 11)
  | .subs => true
  | .diff => true
  | .round i => decide (i.toNat ≤ 11)
  | .perm r => decide (1 ≤ r.toNat ∧ r.toNat ≤ 12)
  | .b2w => true
  | .w2b => true
  | .rotr _ => true
  | .computeTag => true
  | .idle => true
  | .init => true
  | .absorbFull => true
  | .absorbFinal => true
  | .squeeze => true
  | .done => true

end Sys2Proof
end

