-- ==== Sys2Proof/Decode.lean ====
section
/-! DEFINITION. The decoder of select words, total, rejecting by name (R60, R63, R64); the encoder, from the same
table (R60); the rows of the opcode table as data; and the host's numbered words. -/

namespace Sys2Proof

/-- `HOSTCMD`: `0x01` is `COMPUTE_TAG`, there is no other command (R61). -/
def decodeHostcmd (op : BitVec 8) : Decoded :=
  if op = 0x01#8 then .ok .computeTag else .rejected (.reservedCommand op)

/-- `PHASE`: the codes of R18; 6 and 7 are reserved. -/
def decodePhase (ph : BitVec 3) : Decoded :=
  if ph = 0b000#3 then .ok .idle
  else if ph = 0b001#3 then .ok .init
  else if ph = 0b010#3 then .ok .absorbFull
  else if ph = 0b011#3 then .ok .absorbFinal
  else if ph = 0b100#3 then .ok .squeeze
  else if ph = 0b101#3 then .ok .done
  else .rejected (.reservedPhase ph)

/-- `ENGREQ`: the round count, legal values 1 to 12 (R63, R64). -/
def decodeEngreq (r : BitVec 4) : Decoded :=
  if 1 ≤ r.toNat ∧ r.toNat ≤ 12 then .ok (.perm r) else .rejected (.roundCountOutOfRange r)

/-- `RSTEP`: `l[5:4]` selects the layer or the round, `i[3:0]` the index, ignored for `SUBS` and `DIFF` (R60). -/
def decodeRstep (c : BitVec 6) : Decoded :=
  let l := c.extractLsb' 4 2
  let i := c.extractLsb' 0 4
  if l = 0#2 then (if i.toNat ≤ 11 then .ok (.addc i) else .rejected (.roundIndexOutOfRange i))
  else if l = 1#2 then .ok .subs
  else if l = 2#2 then .ok .diff
  else (if i.toNat ≤ 11 then .ok (.round i) else .rejected (.roundIndexOutOfRange i))

/-- `CODEC`: `f[7:6]` selects the function, `n[5:0]` the amount, ignored for `B2W` and `W2B` (R60). -/
def decodeCodec (c : BitVec 8) : Decoded :=
  let f := c.extractLsb' 6 2
  let n := c.extractLsb' 0 6
  if f = 0#2 then .ok .b2w
  else if f = 1#2 then .ok .w2b
  else if f = 2#2 then .ok (.rotr n)
  else .rejected (.reservedCodec n)

/-- The operation a select word stands for, or why it stands for none (R60, R64). -/
def decode : Select → Decoded
  | .hostcmd op => decodeHostcmd op
  | .phase ph => decodePhase ph
  | .engreq r => decodeEngreq r
  | .rstep c => decodeRstep c
  | .codec c => decodeCodec c

/-- The select word of an operation (R60); the don't-care bits are written as zeros. -/
def encode : Instr → Select
  | .addc i => .rstep (0b00#2 ++ i)
  | .subs => .rstep 0b010000#6
  | .diff => .rstep 0b100000#6
  | .round i => .rstep (0b11#2 ++ i)
  | .perm r => .engreq r
  | .b2w => .codec 0b00000000#8
  | .w2b => .codec 0b01000000#8
  | .rotr n => .codec (0b10#2 ++ n)
  | .computeTag => .hostcmd 0b00000001#8
  | .idle => .phase 0b000#3
  | .init => .phase 0b001#3
  | .absorbFull => .phase 0b010#3
  | .absorbFinal => .phase 0b011#3
  | .squeeze => .phase 0b100#3
  | .done => .phase 0b101#3

/-- The format a select word is in. -/
def Select.format : Select → Format
  | .hostcmd _ => .hostcmd
  | .phase _ => .phase
  | .engreq _ => .engreq
  | .rstep _ => .rstep
  | .codec _ => .codec

/-- A select word's bits as a number, bit 0 the least significant. -/
def Select.bits : Select → Nat
  | .hostcmd op => op.toNat
  | .phase ph => ph.toNat
  | .engreq r => r.toNat
  | .rstep c => c.toNat
  | .codec c => c.toNat

/-- One row of spec/opcode_table.json: its format, and which bits of a word of that format must be what. -/
structure Row where
  format  : Format
  width   : Nat
  mask    : Nat
  pattern : Nat
deriving DecidableEq, Repr

/-- The opcode table's row of an operation ("format", "width", "mask" and "match" of spec/opcode_table.json). -/
def Instr.row : Instr → Row
  | .addc _ => ⟨.rstep, 6, 0x30, 0x00⟩
  | .subs => ⟨.rstep, 6, 0x30, 0x10⟩
  | .diff => ⟨.rstep, 6, 0x30, 0x20⟩
  | .round _ => ⟨.rstep, 6, 0x30, 0x30⟩
  | .perm _ => ⟨.engreq, 4, 0x0, 0x0⟩
  | .b2w => ⟨.codec, 8, 0xc0, 0x00⟩
  | .w2b => ⟨.codec, 8, 0xc0, 0x40⟩
  | .rotr _ => ⟨.codec, 8, 0xc0, 0x80⟩
  | .computeTag => ⟨.hostcmd, 8, 0xff, 0x01⟩
  | .idle => ⟨.phase, 3, 0x7, 0x0⟩
  | .init => ⟨.phase, 3, 0x7, 0x1⟩
  | .absorbFull => ⟨.phase, 3, 0x7, 0x2⟩
  | .absorbFinal => ⟨.phase, 3, 0x7, 0x3⟩
  | .squeeze => ⟨.phase, 3, 0x7, 0x4⟩
  | .done => ⟨.phase, 3, 0x7, 0x5⟩

/-- A select word is one of a row's words: same format, and the masked bits are the row's. -/
def Row.fits (r : Row) (w : Select) : Bool :=
  decide (w.format = r.format) && decide (w.bits &&& r.mask = r.pattern)

/-- The select word that the host's numbered word stands for. A number names no format, and the formats' codes
overlap (R60), so the width says which format is meant: 3 bits `PHASE`, 4 `ENGREQ`, 6 `RSTEP`. A word of any
other width is taken as one byte, and read as a word of the first format of this list that it belongs to:
`CODEC` for `f ≠ 0` and for 0; `RSTEP` for `l ≠ 0`; `HOSTCMD` for 1; `PHASE` for 2 to 5; else `ENGREQ`
(DESIGN CHOICE, log entry 2; nothing in `step` uses it). -/
def selectOfTableWord (nbits w : Nat) : Select :=
  if nbits = 3 then .phase (BitVec.ofNat 3 w)
  else if nbits = 4 then .engreq (BitVec.ofNat 4 w)
  else if nbits = 6 then .rstep (BitVec.ofNat 6 w)
  else
    let b := w % 256
    if b = 0 ∨ 64 ≤ b then .codec (BitVec.ofNat 8 b)
    else if 16 ≤ b then .rstep (BitVec.ofNat 6 b)
    else if b = 1 then .hostcmd (BitVec.ofNat 8 b)
    else if b ≤ 5 then .phase (BitVec.ofNat 3 b)
    else .engreq (BitVec.ofNat 4 b)

/-- The operation the decoder reads from the host's numbered word, or none where it rejects. -/
def decodeTableWord (nbits w : Nat) : Option Instr :=
  match decode (selectOfTableWord nbits w) with
  | .ok i => some i
  | .rejected _ => none

end Sys2Proof
end

