-- ==== Sys2Proof/Config.lean ====
section
/-! DEFINITION. The parameters of the block. R8 lists those the source fixes, R9 those it needs but does not
give: the latter are the fields of `Config`, so that every function that uses one takes the configuration as an
argument, and the values one machine runs with are the field `cfg` of its state, which no step writes. The defaults are
`Machine.params` (Machine/Params.lean).

`LEN_WIDTH`, `BUS_MAP` and `N_INST` of R9 need no field: the message length is a natural number (D5; log entry 10), no rule
reads `BUS_MAP` (D2), and Machine/Instances.lean models any number of instances (R124). -/

namespace Sys2Proof

/-- The parameter `ROT_DIR` of R9: toward bit 0 (`right`) or away from it (`left`). -/
inductive RotDir where
  | right
  | left
deriving DecidableEq, Repr

/-- The parameters the source needs but does not give (R9). -/
structure Config where
  /-- `RC[0..11]`, the constant table, read-only and never mutated (R24, R67). -/
  rc     : Vector Word 12
  /-- `IV_MAC`, the initialisation constant of word 0 (R49). -/
  ivMac  : Word
  /-- `ROT_DIR`, the direction of the rotation helper (R86). -/
  rotDir : RotDir
deriving DecidableEq, Repr

end Sys2Proof
end

