-- ==== Sys2Proof/Machine/Params.lean ====
section
/-! DEFINITION. The default values of the parameters (R9). -/

namespace Sys2Proof.Machine

/-- The default of each parameter of R9. All three come from outside the source (PRESUMED, log entry 1). -/
def params : Config where
  rc := #v[0xf0#64, 0xe1#64, 0xd2#64, 0xc3#64, 0xb4#64, 0xa5#64, 0x96#64, 0x87#64, 0x78#64, 0x69#64, 0x5a#64, 0x4b#64]
  ivMac := 0x80808c0000000080#64
  rotDir := .right

end Sys2Proof.Machine
end

