-- ==== Sys2Proof/Machine/State.lean ====
section
/-! DEFINITION. The state of the block as plain data, the state after reset, one update per field, and the reasons
a step can stop. The first part of `State` is what the spec gives the machine (10_state.md); the second part is the
model's own: the parameter values of this machine, the codec's wires, the host's pending moves and what it has read, and the instrumentation R125 allows. -/

namespace Sys2Proof.Machine

/-- The five state words `x[0..4]`, 64 bits each (R13). -/
structure Words where
  x0 : Word
  x1 : Word
  x2 : Word
  x3 : Word
  x4 : Word
deriving DecidableEq, Repr

/-- The driver's state (R18): six values, codes 6 and 7 are never taken. -/
inductive Phase where
  | idle
  | init
  | absorbFull
  | absorbFinal
  | squeeze
  | done
deriving DecidableEq, Repr

/-- The error field `ERR` (R28); its codes are in Machine/Flags.lean. -/
inductive ErrCode where
  | none
  | invalidKeyLength
  | bufferTooSmall
  | illegalCommand
deriving DecidableEq, Repr

/-- A byte space that the host owns and the core reads: (index, byte) pairs, indices strictly rising, no entry for
a byte that holds what an unlisted index reads as (`unlistedByte` of Machine/Ops.lean). -/
abbrev Memory := List Host.Cell

/-- The two byte spaces the core reads (R33, R34). -/
inductive Space where
  | key
  | msg
deriving DecidableEq, Repr

/-- The codec's operand and result wires (R83, R84, R86). The codec is stateless and these are no registers of
10_state.md: they hold the operand that is presented to it and the result it shows (log entry 5). -/
structure CodecPort where
  inBytes  : Vector Byte 8
  inWord   : Word
  outWord  : Word
  outBytes : Vector Byte 8
deriving DecidableEq, Repr

/-- A move of the host on its interface: `WR` and `RD` lines of R66, and the global reset (R128). The host has no
move that reads `KEY` (R33), and none that reads or writes `x`, `BUF`, `ridx`, `blk`, `LEN` or `RC` (R14, R42). -/
inductive HostMove where
  | wrCmd (v : BitVec 8)
  | wrStatus (v : BitVec 8)
  | wrKeyLen (v : BitVec 8)
  | wrTagCap (v : BitVec 8)
  | wrMsgLen (n : Nat)
  | wrKey (i : Fin 16) (b : Byte)
  | wrMsg (i : Nat) (b : Byte)
  | wrTag (i : Fin 16) (b : Byte)
  | rdCmd
  | rdStatus
  | rdKeyLen
  | rdTagCap
  | rdMsgLen
  | rdTag (i : Fin 16)
  | reset
deriving DecidableEq, Repr

/-- What a read of the host returned. -/
inductive HostRead where
  | cmd (v : BitVec 8)
  | status (v : BitVec 8)
  | keyLen (v : BitVec 8)
  | tagCap (v : BitVec 8)
  | msgLen (n : Nat)
  | tag (i : Fin 16) (b : Byte)
deriving DecidableEq, Repr

/-- One pending input from outside the core, in the order the outside makes them (log entries 3 and 4). -/
inductive Input where
  /-- A move of the host. `atOnce = false`: made when the core has no step of its own, the atomic reading of R43;
  `atOnce = true`: made in this very step, between two core steps. -/
  | host (atOnce : Bool) (m : HostMove)
  /-- The host makes no move in this step; the core takes its own. -/
  | pass
  /-- A word at the engine's request port (R63, R77). -/
  | engreq (r : BitVec 4)
  /-- A word at the engine's step select (R63). -/
  | rstep (c : BitVec 6)
  /-- A word at the codec's function select (R63). -/
  | codec (c : BitVec 8)
  /-- The codec's operand wires take these values. -/
  | driveCodec (b : Vector Byte 8) (w : Word)
deriving DecidableEq, Repr

/-- The instrumentation of R125: a permutation request with its round count, a `MemRead` with its space, address
and length. -/
inductive Event where
  | perm (r : BitVec 4)
  | memRead (sp : Space) (addr : Nat) (n : Nat)
deriving DecidableEq, Repr

/-- The machine. -/
structure State where
  /-- `x[0..4]`, private to the core (R13, R14). -/
  x : Words
  /-- `phase`, 3 bits, six values (R18). -/
  phase : Phase
  /-- `blk`, complete blocks absorbed so far (R19). -/
  blk : Nat
  /-- `ridx`, the round controller, 0..11 next round, 12 idle (R20). -/
  ridx : Fin 13
  /-- `LEN`, the latched message length (R21). -/
  len : Nat
  /-- `BUF[0..31]`, staging register of the final block (R22). -/
  buf : Vector Byte 32
  /-- `TAG[0..15]`, output register (R23). -/
  tag : Vector Byte 16
  /-- `ERR`, 2-bit error field (R28). -/
  err : ErrCode
  /-- `KEY_LEN`, 8 bits (R27). -/
  keyLen : BitVec 8
  /-- `TAG_CAP`, 8 bits (R27). -/
  tagCap : BitVec 8
  /-- `MSG_LEN`, a natural number (R27, D5). -/
  msgLen : Nat
  /-- The `KEY` space, indices 0..15, host-owned (R33). -/
  key : Memory
  /-- The `MSG` space, host-owned (R34). -/
  msg : Memory
  /-- The parameter values this machine is built with, no state of the spec: no step writes them, and they are "not
  resettable" (R9, R24, R31; log entry 18). -/
  cfg : Config
  /-- The model's own: the codec's wires. -/
  codec : CodecPort
  /-- The model's own: what the outside has yet to do. -/
  inputs : List Input
  /-- The model's own: what the host has read, newest first. -/
  reads : List HostRead
  /-- The model's own: the event history of R125, newest first. -/
  events : List Event
deriving DecidableEq, Repr

/-- The machine has no fault: "No access can trap" (R39), "There is no memory fault, alignment fault,
illegal-instruction fault, arithmetic fault or timeout" (R120). A rejected command (R117) is a next state with its
code in `ERR`. The type is empty, so no step answers a fault; that is safe. -/
inductive Fault where
deriving DecidableEq, Repr

/-- Why the model gives an operation or an input no meaning. -/
inductive Refusal where
  /-- Raised by an arm of `exec` that has no meaning yet; safe. -/
  | notModelled (mnemonic : String)
  /-- Raised by `PERM r` with `r` outside 1..12, "a model refuses such a request" (R78); safe. -/
  | roundCountOutOfRange (r : BitVec 4)
  /-- Raised by `ADDC i` and `ROUND i` with `i` outside 0..11, "a model refuses" (R64); safe. -/
  | roundIndexOutOfRange (i : BitVec 4)
  /-- Raised by `PERM r` while a permutation is in progress: the request is enabled only when `ridx = 12` (R77);
  no step of the machine gets here; safe. -/
  | engineBusy
  /-- Raised by a codec select with `f = 3`, "a model refuses" (R64); safe. -/
  | reservedCodec (n : BitVec 6)
  /-- Raised by a phase code 6 or 7, which no state holds (R18); safe. -/
  | reservedPhase (ph : BitVec 3)
  /-- Raised by a reserved command byte where no driver would take it; a write of one to `CMD` is handled by
  R116 instead, so no step of the machine gets here; safe. -/
  | reservedCommand (op : BitVec 8)
  /-- Raised by a host write to `MSG` while `BUSY = 1`: a model gives the host no such move (R45, treatment
  `refuse`); safe. -/
  | msgWriteWhileBusy
deriving DecidableEq, Repr

/-- All five words zero. -/
def Words.zero : Words := ⟨0, 0, 0, 0, 0⟩

/-- The codec's wires before anything is driven (DESIGN CHOICE, log entry 5). -/
def CodecPort.zero : CodecPort := ⟨Vector.replicate 8 0, 0, 0, Vector.replicate 8 0⟩

/-- The machine with parameter values `c` right after reset (R31, R128). `KEY` and `MSG` are unspecified there (U16):
nothing is listed (DESIGN CHOICE, log entry 6). -/
def State.resetWith (c : Config) : State where
  x := Words.zero
  phase := .idle
  blk := 0
  ridx := 12
  len := 0
  buf := Vector.replicate 32 0
  tag := Vector.replicate 16 0
  err := .none
  keyLen := 0
  tagCap := 0
  msgLen := 0
  key := []
  msg := []
  cfg := c
  codec := CodecPort.zero
  inputs := []
  reads := []
  events := []

/-- The machine right after reset, with the default of each parameter (R9). -/
def State.reset : State := State.resetWith params

namespace State

/-- Replace the field `x`. -/
def setX (s : State) (v : Words) : State := { s with x := v }

/-- Replace the field `phase`. -/
def setPhase (s : State) (v : Phase) : State := { s with phase := v }

/-- Replace the field `blk`. -/
def setBlk (s : State) (v : Nat) : State := { s with blk := v }

/-- Replace the field `ridx`. -/
def setRidx (s : State) (v : Fin 13) : State := { s with ridx := v }

/-- Replace the field `len`. -/
def setLen (s : State) (v : Nat) : State := { s with len := v }

/-- Replace the field `buf`. -/
def setBuf (s : State) (v : Vector Byte 32) : State := { s with buf := v }

/-- Replace the field `tag`. -/
def setTag (s : State) (v : Vector Byte 16) : State := { s with tag := v }

/-- Replace the field `err`. -/
def setErr (s : State) (v : ErrCode) : State := { s with err := v }

/-- Replace the field `keyLen`. -/
def setKeyLen (s : State) (v : BitVec 8) : State := { s with keyLen := v }

/-- Replace the field `tagCap`. -/
def setTagCap (s : State) (v : BitVec 8) : State := { s with tagCap := v }

/-- Replace the field `msgLen`. -/
def setMsgLen (s : State) (v : Nat) : State := { s with msgLen := v }

/-- Replace the field `key`. -/
def setKey (s : State) (v : Memory) : State := { s with key := v }

/-- Replace the field `msg`. -/
def setMsg (s : State) (v : Memory) : State := { s with msg := v }

/-- Replace the field `cfg`. -/
def setCfg (s : State) (v : Config) : State := { s with cfg := v }

/-- Replace the field `codec`. -/
def setCodec (s : State) (v : CodecPort) : State := { s with codec := v }

/-- Replace the field `inputs`. -/
def setInputs (s : State) (v : List Input) : State := { s with inputs := v }

/-- Replace the field `reads`. -/
def setReads (s : State) (v : List HostRead) : State := { s with reads := v }

/-- Replace the field `events`. -/
def setEvents (s : State) (v : List Event) : State := { s with events := v }

end State

end Sys2Proof.Machine
end

