-- ==== Sys2Proof/Machine/Flags.lean ====
section
/-! DEFINITION. The codes of `phase` and `ERR`, the flags `BUSY` and `DONE`, and the register `STATUS`, a view of
other state (R18, R26, R28). The block has no arithmetic flags; no operation of the engine or codec sets any. -/

namespace Sys2Proof.Machine

/-- The code of a phase (R18). -/
def Phase.code : Phase → BitVec 3
  | .idle => 0
  | .init => 1
  | .absorbFull => 2
  | .absorbFinal => 3
  | .squeeze => 4
  | .done => 5

/-- The phase of a code; 6 and 7 are none (R18). -/
def phaseOfCode (p : BitVec 3) : Option Phase :=
  if p = 0 then some .idle
  else if p = 1 then some .init
  else if p = 2 then some .absorbFull
  else if p = 3 then some .absorbFinal
  else if p = 4 then some .squeeze
  else if p = 5 then some .done
  else none

/-- The code of an error (R28, R113). -/
def ErrCode.code : ErrCode → BitVec 2
  | .none => 0
  | .invalidKeyLength => 1
  | .bufferTooSmall => 2
  | .illegalCommand => 3

/-- `BUSY`: `phase` is `INIT`, `ABSORB_FULL`, `ABSORB_FINAL` or `SQUEEZE` (R26). -/
def Phase.busy : Phase → Bool
  | .idle => false
  | .init => true
  | .absorbFull => true
  | .absorbFinal => true
  | .squeeze => true
  | .done => false

/-- `DONE`: `phase = DONE` (R26). -/
def Phase.isDone : Phase → Bool
  | .idle => false
  | .init => false
  | .absorbFull => false
  | .absorbFinal => false
  | .squeeze => false
  | .done => true

/-- `STATUS`: `PHASE[2:0]`, `BUSY[3]`, `DONE[4]`, `ERR[6:5]`, bit 7 reads 0 (R26). -/
def status (s : State) : BitVec 8 :=
  0#1 ++ s.err.code ++ BitVec.ofBool s.phase.isDone ++ BitVec.ofBool s.phase.busy ++ s.phase.code

end Sys2Proof.Machine
end

