-- ==== Sys2Proof/Machine/Operands.lean ====
section
/-! DEFINITION. The byte/word codec and rotation helper as functions (41_byte_word_codec.md),
and how operands are assembled from bytes, counters and constants (R65). -/

namespace Sys2Proof.Machine

/-! ### The codec -/

/-- `B2W`, most significant byte first (R83). -/
def b2w (b : Vector Byte 8) : Word :=
  b[0] ++ b[1] ++ b[2] ++ b[3] ++ b[4] ++ b[5] ++ b[6] ++ b[7]

/-- `W2B`: byte `k` is bits `63 − 8k : 56 − 8k` (R84). -/
def w2b (w : Word) : Vector Byte 8 :=
  Vector.ofFn fun k => w.extractLsb' (56 - 8 * k.val) 8

/-- `ROTR(w, n)`, toward bit 0 (R86). For `n = 0` the second term is a shift by 64, which is zero. -/
def rotr (w : Word) (n : BitVec 6) : Word :=
  (w >>> n.toNat) ||| (w <<< (64 - n.toNat))

/-- `ROTL(w, n) = ROTR(w, (64 − n) mod 64)` (R86). -/
def rotl (w : Word) (n : BitVec 6) : Word :=
  rotr w (BitVec.ofNat 6 ((64 - n.toNat) % 64))

/-- The rotation helper in the direction `ROT_DIR` (R86). -/
def rotate (c : Config) (w : Word) (n : BitVec 6) : Word :=
  match c.rotDir with
  | .right => rotr w n
  | .left => rotl w n

/-! ### Operand assembly -/

/-- The rotation amounts `ROT[i] = (a_i, b_i)` (R8, R56). -/
def rotAmounts : Fin 5 → BitVec 6 × BitVec 6
  | 0 => (19, 28)
  | 1 => (61, 39)
  | 2 => (1, 6)
  | 3 => (10, 17)
  | 4 => (7, 41)

/-- The whole constant schedule in increasing order. -/
def schedule : List (Fin 12) := [0, 1, 2, 3, 4, 5, 6, 7, 8, 9, 10, 11]

/-- The round indices of a permutation with round count `r`: `12 − r, .., 11` (R57). -/
def roundIndices (r : Nat) : List (Fin 12) := schedule.drop (12 - r)

/-- `NB = floor(LEN/32)`, the number of complete blocks (R21). -/
def numBlocks (len : Nat) : Nat := len / 32

/-- `t = LEN mod 32`, the number of tail bytes (R21). -/
def tailLen (len : Nat) : Nat := len % 32

/-- The byte address of chunk `j` of block `b` (R65 c). -/
def chunkAddr (b j : Nat) : Nat := 32 * b + 8 * j

/-- The first byte address of the tail (R65 d). -/
def tailAddr (len : Nat) : Nat := 32 * numBlocks len

/-- `PAD_BYTE` (R8). -/
def padByte : Byte := 0x80

/-- The final block: the tail bytes, then `0x80`, then zeros (R52). -/
def padBlock (t : Nat) (tail : Vector Byte t) : Vector Byte 32 :=
  Vector.ofFn fun k => if h : k.val < t then tail[k.val] else if k.val = t then padByte else 0x00

/-- The 8-byte chunk `j` of a 32-byte block (R51). -/
def blockChunk (b : Vector Byte 32) (j : Fin 4) : Vector Byte 8 :=
  Vector.ofFn fun k => b[8 * j.val + k.val]

/-- The 16 tag bytes of two words, each big-endian (R54). -/
def tagBytes (w0 w1 : Word) : Vector Byte 16 :=
  Vector.ofFn fun k => if h : k.val < 8 then (w2b w0)[k.val] else (w2b w1)[k.val - 8]

end Sys2Proof.Machine
end

