-- ==== Sys2Proof/Machine/Permutation.lean ====
section
/-! DEFINITION. The permutation engine as functions of the five words: the three layers, the round, the permutation
(40_permutation_engine.md), the S-box table, and the words' loads of the driver (30_encoding.md section 1). Each
takes the configuration, so that it has a meaning for every value of the parameters. -/

namespace Sys2Proof.Machine

/-- `x[i]` (R11). -/
def Words.get (S : Words) : Fin 5 → Word
  | 0 => S.x0
  | 1 => S.x1
  | 2 => S.x2
  | 3 => S.x3
  | 4 => S.x4

/-- Constant addition: `x[2] <- x[2] ^ RC[i]` (R68). -/
def addConstant (c : Config) (i : Fin 12) (S : Words) : Words :=
  { S with x2 := S.x2 ^^^ c.rc[i] }

/-- Substitution layer, in the order of R69: three XORs, the five terms `t[i] = ~x[i] & x[i+1]`, word `i` takes
`t[i+1]` (D25, 90_conflicts.md C1; log entry 8), then four closing lines. -/
def substitute (S : Words) : Words :=
  let a0 := S.x0 ^^^ S.x4
  let a4 := S.x4 ^^^ S.x3
  let a2 := S.x2 ^^^ S.x1
  let a1 := S.x1
  let a3 := S.x3
  let t0 := ~~~a0 &&& a1
  let t1 := ~~~a1 &&& a2
  let t2 := ~~~a2 &&& a3
  let t3 := ~~~a3 &&& a4
  let t4 := ~~~a4 &&& a0
  let b0 := a0 ^^^ t1
  let b1 := a1 ^^^ t2
  let b2 := a2 ^^^ t3
  let b3 := a3 ^^^ t4
  let b4 := a4 ^^^ t0
  let c1 := b1 ^^^ b0
  let c0 := b0 ^^^ b4
  let c3 := b3 ^^^ b2
  let c2 := ~~~b2
  ⟨c0, c1, c2, c3, b4⟩

/-- One line of the diffusion layer: the word XORed with two rotations of itself (R73). -/
def diffuseWord (c : Config) (i : Fin 5) (w : Word) : Word :=
  w ^^^ rotate c w (rotAmounts i).1 ^^^ rotate c w (rotAmounts i).2

/-- Linear diffusion layer, five independent lines (R73). -/
def diffuse (c : Config) (S : Words) : Words :=
  ⟨diffuseWord c 0 S.x0, diffuseWord c 1 S.x1, diffuseWord c 2 S.x2, diffuseWord c 3 S.x3, diffuseWord c 4 S.x4⟩

/-- One round: constant addition, substitution, diffusion, in that order (R75). -/
def roundWords (c : Config) (i : Fin 12) (S : Words) : Words :=
  diffuse c (substitute (addConstant c i S))

/-- `PERM r` as one function: the rounds `12 − r .. 11` in increasing order (R76). -/
def permute (c : Config) (r : Nat) (S : Words) : Words :=
  (roundIndices r).foldl (fun T i => roundWords c i T) S

/-- Lane `b` of the five words as a 5-bit number, word 0 the most significant bit (R55). -/
def lane (S : Words) (b : Fin 64) : BitVec 5 :=
  BitVec.ofBool S.x0[b] ++ BitVec.ofBool S.x1[b] ++ BitVec.ofBool S.x2[b] ++ BitVec.ofBool S.x3[b] ++ BitVec.ofBool S.x4[b]

/-- The S-box truth table (R71). -/
def sboxTable : Vector (BitVec 5) 32 :=
  #v[0x04, 0x0b, 0x1f, 0x14, 0x1a, 0x15, 0x09, 0x02, 0x1b, 0x05, 0x08, 0x12, 0x1d, 0x03, 0x06, 0x1c,
     0x1e, 0x13, 0x07, 0x0e, 0x00, 0x0d, 0x11, 0x18, 0x10, 0x0c, 0x01, 0x19, 0x16, 0x0a, 0x0f, 0x17]

/-- The five writes of the INIT load (R93, R49, R50). -/
def initWords (c : Config) (k0 k1 : Vector Byte 8) : Words :=
  ⟨c.ivMac, b2w k0, b2w k1, 0, 0⟩

/-- Absorb four 8-byte chunks into words 0 to 3; word 4 receives nothing (R51). -/
def absorbChunks (S : Words) (c0 c1 c2 c3 : Vector Byte 8) : Words :=
  { S with x0 := S.x0 ^^^ b2w c0, x1 := S.x1 ^^^ b2w c1, x2 := S.x2 ^^^ b2w c2, x3 := S.x3 ^^^ b2w c3 }

/-- Absorb a 32-byte block: chunk `j` is `B[8j .. 8j+7]` (R51). -/
def absorbBlock (S : Words) (b : Vector Byte 32) : Words :=
  absorbChunks S (blockChunk b 0) (blockChunk b 1) (blockChunk b 2) (blockChunk b 3)

/-- Domain separation: flip the least significant bit of word 4 (R53). -/
def domainSeparate (S : Words) : Words :=
  { S with x4 := S.x4 ^^^ 0x0000000000000001#64 }

end Sys2Proof.Machine
end

