-- ==== Sys2Proof/Machine/Ops.lean ====
section
/-! DEFINITION. The named operations over the byte spaces and the registers, shared by the meanings: reading and
writing a space, taking a rejection (the counterpart of trap entry, R117), the permutation request and the round
step (R77), the loads and the discard of the driver, and the global reset (R128). There is no return operation
(R121): `ERR` keeps its code until the next accepted command, the next rejection or reset. -/

namespace Sys2Proof.Machine

/-! ### The byte spaces -/

/-- What an index that is not listed reads as (DESIGN CHOICE, log entry 6: the spec leaves it unspecified, U16). -/
def unlistedByte : Byte := 0x00

/-- The byte at an index of a space. -/
def Memory.read : Memory → Nat → Byte
  | [], _ => unlistedByte
  | (k, v) :: rest, a => if a = k then v else Memory.read rest a

/-- Put a byte in front of a list, or nothing when it is what an unlisted index reads as. -/
def Memory.consCell (a : Nat) (b : Byte) (m : Memory) : Memory :=
  if b = unlistedByte then m else (a, b) :: m

/-- Write one byte, keeping the canonical form. -/
def Memory.write : Memory → Nat → Byte → Memory
  | [], a, b => Memory.consCell a b []
  | (k, v) :: rest, a, b =>
    if a < k then Memory.consCell a b ((k, v) :: rest)
    else if a = k then Memory.consCell a b rest
    else (k, v) :: Memory.write rest a b

/-- Every listed index is at least `lo`, indices rise strictly, and no entry is what an unlisted index reads as. -/
def Memory.wfFrom : Nat → Memory → Bool
  | _, [] => true
  | lo, (k, v) :: rest => decide (lo ≤ k) && decide (v ≠ unlistedByte) && Memory.wfFrom (k + 1) rest

/-- The canonical form. -/
def Memory.wf (m : Memory) : Bool := Memory.wfFrom 0 m

/-- Every listed index is below a bound: the `KEY` space has 16 bytes (R33). -/
def Memory.below (n : Nat) (m : Memory) : Bool := m.all fun c => decide (c.1 < n)

/-- `MemRead(space, addr, n)`: the bytes `addr .. addr + n − 1` in that order; changes nothing (R36). -/
def memRead (m : Memory) (addr n : Nat) : Vector Byte n :=
  Vector.ofFn fun k => m.read (addr + k.val)

/-- The space by its name. -/
def State.space (s : State) : Space → Memory
  | .key => s.key
  | .msg => s.msg

/-- The byte at an index of a space of the machine. -/
def State.byteAt (s : State) (sp : Space) (a : Nat) : Byte := (s.space sp).read a

/-- Record an event outside the architectural state (R125). -/
def State.note (s : State) (e : Event) : State := s.setEvents (e :: s.events)

/-- Record a read of `n` bytes; a read of no bytes is no read (P1 of 95_test_vectors.md; log entry 15). -/
def State.noteRead (s : State) (sp : Space) (addr n : Nat) : State :=
  if n = 0 then s else s.note (.memRead sp addr n)

/-! ### Rejection -/

/-- Rejection, the counterpart of trap entry: `ERR <- code` and nothing else (R117). -/
def raise (e : ErrCode) (s : State) : State := s.setErr e

/-! ### The round controller -/

/-- The request `PERM r`: `ridx <- 12 − r` (R77). -/
def requestPerm (r : BitVec 4) (s : State) : State :=
  (s.setRidx ⟨12 - r.toNat, by omega⟩).note (.perm r)

/-- The round controller moves on to the next round; at 12 it is idle and stays so (R77). -/
def nextRidx (i : Fin 13) : Fin 13 :=
  if h : i.val < 12 then ⟨i.val + 1, by omega⟩ else i

/-- A round step: `ROUND ridx ; ridx <- ridx + 1`, enabled when `ridx ≤ 11` (R77; row T1 of R100). -/
def roundStep (s : State) : State :=
  if h : s.ridx.val < 12 then (s.setX (roundWords s.cfg ⟨s.ridx.val, h⟩ s.x)).setRidx (nextRidx s.ridx) else s

/-! ### The driver's loads -/

/-- The accepting branch of R91 (row T0 of R100): `ERR`, `LEN`, `blk` and `TAG` written, the INIT load of R93,
the request `PERM 12`, and `phase <- INIT`. -/
def acceptCommand (s : State) : State :=
  let k0 := memRead s.key 0 8
  let k1 := memRead s.key 8 8
  let s1 := (((s.setErr .none).setLen s.msgLen).setBlk 0).setTag (Vector.replicate 16 0)
  let s2 := ((s1.setX (initWords s.cfg k0 k1)).noteRead .key 0 8).noteRead .key 8 8
  (requestPerm 12 s2).setPhase .init

/-- Row T3 of R100: absorb complete block `blk`, count it, request `PERM 12` (R94). -/
def loadFullBlock (s : State) : State :=
  let a := fun j => chunkAddr s.blk j
  let X := absorbChunks s.x (memRead s.msg (a 0) 8) (memRead s.msg (a 1) 8) (memRead s.msg (a 2) 8) (memRead s.msg (a 3) 8)
  let s1 := (((s.noteRead .msg (a 0) 8).noteRead .msg (a 1) 8).noteRead .msg (a 2) 8).noteRead .msg (a 3) 8
  requestPerm 12 ((s1.setX X).setBlk (s.blk + 1))

/-- The padded final block of the latched message (R52, R95). -/
def finalBlock (m : Memory) (len : Nat) : Vector Byte 32 :=
  padBlock (tailLen len) (memRead m (tailAddr len) (tailLen len))

/-- Row T4 of R100: the final-block load of R95 (build `BUF`, absorb it, flip the domain-separation bit), request
`PERM 12`, `phase <- ABSORB_FINAL`. -/
def loadFinalBlock (s : State) : State :=
  let b := finalBlock s.msg s.len
  let s1 := (s.noteRead .msg (tailAddr s.len) (tailLen s.len)).setBuf b
  let s2 := s1.setX (domainSeparate (absorbBlock s.x b))
  (requestPerm 12 s2).setPhase .absorbFinal

/-- `MemWrite(TAG, addr, n, v)`: byte `v[k]` at index `addr + k` (R36). -/
def memWriteTag {n : Nat} (t : Vector Byte 16) (addr : Nat) (v : Vector Byte n) : Vector Byte 16 :=
  Vector.ofFn fun k => if h : addr ≤ k.val ∧ k.val < addr + n then v[k.val - addr] else t[k]

/-- The two `MemWrite`s of R96: `TAG` takes words 0 and 1. -/
def writeTag (s : State) : State :=
  s.setTag (memWriteTag (memWriteTag s.tag 0 (w2b s.x.x0)) 8 (w2b s.x.x1))

/-- The discard of R97: `x` and `BUF` zeroed. -/
def discardState (s : State) : State := (s.setX Words.zero).setBuf (Vector.replicate 32 0)

/-! ### Reset -/

/-- The global reset, at any time and from any phase: every piece of the block's state takes its value of R31;
`KEY` and `MSG` are host-owned and not touched (R128), and the parameters are "not resettable" (R31). What is the
outside's own (pending inputs, reads, event history, the codec's wires) is not the block's state and stays (log
entry 13). -/
def hardReset (s : State) : State :=
  { State.resetWith s.cfg with
    key := s.key, msg := s.msg, codec := s.codec, inputs := s.inputs, reads := s.reads, events := s.events }

end Sys2Proof.Machine
end

