-- ==== Sys2Proof/Machine/Codec.lean ====
section
/-! DEFINITION. The meanings of the codec's operations `B2W`, `W2B` and `ROTR` (41_byte_word_codec.md). They are
pure functions of the operand wires, shown on the result wires; they read and write no register of 10_state.md. -/

namespace Sys2Proof.Machine

/-- `B2W` (R83). -/
def execB2w (s : State) : Host.Outcome State Fault Refusal :=
  .next (s.setCodec { s.codec with outWord := b2w s.codec.inBytes })

/-- `W2B` (R84). -/
def execW2b (s : State) : Host.Outcome State Fault Refusal :=
  .next (s.setCodec { s.codec with outBytes := w2b s.codec.inWord })

/-- `ROTR n`, in the direction `ROT_DIR` (R86). -/
def execRotr (n : BitVec 6) (s : State) : Host.Outcome State Fault Refusal :=
  .next (s.setCodec { s.codec with outWord := rotate s.cfg s.codec.inWord n })

end Sys2Proof.Machine
end

