-- ==== Sys2Proof/Machine/Driver.lean ====
section
/-! DEFINITION. The meanings of the host command `COMPUTE_TAG` and of the phase operations (42_mac_driver.md), each
at the step granularity of R100 (D7; log entry 7): what the core does in ONE step in that phase; in a state of another
phase it does the same (log entry 12). The big-step functions of R92
to R96 are in Machine/BigStep.lean. -/

namespace Sys2Proof.Machine

/-- `COMPUTE_TAG`, the step that handles a write of `0x01` to `CMD` (R91), in the priority of R118: no effect while
busy (R119), then the key length (R114), then the buffer (R115), else accepted. -/
def execComputeTag (s : State) : Host.Outcome State Fault Refusal :=
  if s.phase.busy then .next s
  else if s.keyLen ≠ 16#8 then .next (raise .invalidKeyLength s)
  else if s.tagCap.toNat < 16 then .next (raise .bufferTooSmall s)
  else .next (acceptCommand s)

/-- `IDLE`: the core has no step (R98), so nothing changes. -/
def execIdle (s : State) : Host.Outcome State Fault Refusal :=
  .next s

/-- `INIT`: rounds while the permutation is in progress (T1), then `phase <- ABSORB_FULL` (T2). The five writes of
R93 were made in the step that accepted the command (R91). -/
def execInit (s : State) : Host.Outcome State Fault Refusal :=
  if s.ridx.val < 12 then .next (roundStep s)
  else .next (s.setPhase .absorbFull)

/-- `ABSORB_FULL`: rounds while the permutation is in progress (T1); then the next complete block while `blk < NB`
(T3); after the last one the final-block load, which enters `ABSORB_FINAL` (T4) (R94, R95). -/
def execAbsorbFull (s : State) : Host.Outcome State Fault Refusal :=
  if s.ridx.val < 12 then .next (roundStep s)
  else if s.blk < numBlocks s.len then .next (loadFullBlock s)
  else .next (loadFinalBlock s)

/-- `ABSORB_FINAL`: rounds while the permutation is in progress (T1), then `phase <- SQUEEZE` (T5). The final-block
load of R95 was made in the step that entered this phase (R100). -/
def execAbsorbFinal (s : State) : Host.Outcome State Fault Refusal :=
  if s.ridx.val < 12 then .next (roundStep s)
  else .next (s.setPhase .squeeze)

/-- `SQUEEZE`: the tag is written, the state discarded, `phase <- DONE` (T6; R96, R97). -/
def execSqueeze (s : State) : Host.Outcome State Fault Refusal :=
  .next ((discardState (writeTag s)).setPhase .done)

/-- `DONE`: `x` and `BUF` are zero (R97). The step that enters `DONE` has zeroed them already, so in a state the host
can reach this changes nothing, and the core has no step of its own (DESIGN CHOICE, log entry 9). -/
def execDone (s : State) : Host.Outcome State Fault Refusal :=
  .next (discardState s)

end Sys2Proof.Machine
end

