-- ==== Sys2Proof/Machine/Engine.lean ====
section
/-! DEFINITION. The meanings of the engine's operations `ADDC`, `SUBS`, `DIFF`, `ROUND` and `PERM`
(40_permutation_engine.md). None sets a flag. -/

namespace Sys2Proof.Machine

/-- `ADDC i` (R68); an index above 11 is refused (R64). -/
def execAddc (i : BitVec 4) (s : State) : Host.Outcome State Fault Refusal :=
  if h : i.toNat < 12 then .next (s.setX (addConstant s.cfg ⟨i.toNat, h⟩ s.x))
  else .refused (.roundIndexOutOfRange i)

/-- `SUBS` (R69). -/
def execSubs (s : State) : Host.Outcome State Fault Refusal :=
  .next (s.setX (substitute s.x))

/-- `DIFF` (R73). -/
def execDiff (s : State) : Host.Outcome State Fault Refusal :=
  .next (s.setX (diffuse s.cfg s.x))

/-- `ROUND i`: `ADDC i`, `SUBS`, `DIFF` (R75); an index above 11 is refused (R64). The round controller's
`ridx + 1` is the step's, around this operation (R77, Machine/Agents.lean). -/
def execRound (i : BitVec 4) (s : State) : Host.Outcome State Fault Refusal :=
  if h : i.toNat < 12 then .next (s.setX (roundWords s.cfg ⟨i.toNat, h⟩ s.x))
  else .refused (.roundIndexOutOfRange i)

/-- `PERM r` at the request port, in the small-step form of R77: `ridx <- 12 − r`, enabled when `ridx = 12`; the `r`
round steps that follow make the permutation of R76 (`permute`). A round count outside 1..12 is refused (R78); so
is a request while a permutation is in progress, which R77 does not enable (log entry 7). -/
def execPerm (r : BitVec 4) (s : State) : Host.Outcome State Fault Refusal :=
  if 1 ≤ r.toNat ∧ r.toNat ≤ 12 then
    if s.ridx = 12 then .next (requestPerm r s) else .refused .engineBusy
  else .refused (.roundCountOutOfRange r)

end Sys2Proof.Machine
end

