-- ==== Sys2Proof/Machine/Dispatch.lean ====
section
/-! DEFINITION. The meaning of an operation: one arm per constructor of `Instr`. -/

namespace Sys2Proof.Machine

def exec (i : Instr) (s : State) : Host.Outcome State Fault Refusal :=
  match i with
  | .addc k => Sys2Proof.Machine.execAddc k s
  | .subs => Sys2Proof.Machine.execSubs s
  | .diff => Sys2Proof.Machine.execDiff s
  | .round k => Sys2Proof.Machine.execRound k s
  | .perm r => Sys2Proof.Machine.execPerm r s
  | .b2w => Sys2Proof.Machine.execB2w s
  | .w2b => Sys2Proof.Machine.execW2b s
  | .rotr n => Sys2Proof.Machine.execRotr n s
  | .computeTag => Sys2Proof.Machine.execComputeTag s
  | .idle => Sys2Proof.Machine.execIdle s
  | .init => Sys2Proof.Machine.execInit s
  | .absorbFull => Sys2Proof.Machine.execAbsorbFull s
  | .absorbFinal => Sys2Proof.Machine.execAbsorbFinal s
  | .squeeze => Sys2Proof.Machine.execSqueeze s
  | .done => Sys2Proof.Machine.execDone s

end Sys2Proof.Machine
end

