-- ==== Sys2Proof/Machine/Agents.lean ====
section
/-! DEFINITION. The two agents (D1): the core, which selects and runs its next operation, and the outside (the host on
its interface, and a bench at the internal selects), whose pending inputs the state holds. `step` of
Machine/Step.lean is `nextStep` here. -/

namespace Sys2Proof.Machine

/-! ### The core -/

/-- The refusal of a select word that stands for no operation (R64). -/
def refusalOf : DecodeError → Refusal
  | .reservedCommand op => .reservedCommand op
  | .reservedPhase ph => .reservedPhase ph
  | .roundCountOutOfRange r => .roundCountOutOfRange r
  | .roundIndexOutOfRange i => .roundIndexOutOfRange i
  | .reservedCodec n => .reservedCodec n

/-- The select word the core acts on next. The triple `(phase, blk, ridx)` has the place of a program counter (R17):
while a permutation is in progress it is the round controller's `RSTEP` word `11 ‖ ridx`, the only kind it issues
(R63, R65 b); else it is the `PHASE` code (R62). -/
def fetch (s : State) : Select :=
  if s.ridx.val < 12 then .rstep (0b11#2 ++ BitVec.ofNat 4 s.ridx.val) else .phase s.phase.code

/-- What the core's step does around the operation it fetched: after a round of the round controller, `ridx + 1`
(R77, T1 of R100). `s` is the state before the operation, `t` the one after it. -/
def advance (s t : State) : State :=
  if s.ridx.val < 12 then t.setRidx (nextRidx s.ridx) else t

/-- Apply a function to the next state, if there is one. -/
def onNext (f : State → State) : Host.Outcome State Fault Refusal → Host.Outcome State Fault Refusal
  | .next t => .next (f t)
  | .fault e => .fault e
  | .refused e => .refused e

/-- Run the operation a select word stands for. -/
def runSelect (w : Select) (s : State) : Host.Outcome State Fault Refusal :=
  match decode w with
  | .ok i => exec i s
  | .rejected e => .refused (refusalOf e)

/-- One step of the core: a row of R100, or of the round controller alone (R77). In `IDLE` and `DONE` no row is
enabled and the operation of that phase leaves the state as it is (R97, R98). -/
def coreStep (s : State) : Host.Outcome State Fault Refusal :=
  onNext (advance s) (runSelect (fetch s) s)

/-- The core has no step of its own: not busy, and no permutation in progress. -/
def quiescent (s : State) : Bool := !s.phase.busy && decide (s.ridx = 12)

/-! ### The host -/

/-- A write of a reserved value to `CMD`: no effect while busy (R119), else `IllegalCommand` (R116). -/
def reservedCommand (s : State) : State :=
  if s.phase.busy then s else raise .illegalCommand s

/-- A write to `CMD` (R25, R91): the value selects the operation; a value that selects none is R116's. -/
def writeCmd (v : BitVec 8) (s : State) : Host.Outcome State Fault Refusal :=
  match decode (.hostcmd v) with
  | .ok i => exec i s
  | .rejected _ => .next (reservedCommand s)

/-- Append what a read returned; a read changes nothing else (R36). -/
def State.observe (s : State) (r : HostRead) : State := s.setReads (r :: s.reads)

/-- One move of the host. Writes to `STATUS` and `TAG` have no effect (R26, R35), a read of `CMD` returns `0x00`
(R25), the parameter registers are read-write (R27), and `MSG` is not written while busy (R45; log entries 11 and 16). -/
def hostStep (m : HostMove) (s : State) : Host.Outcome State Fault Refusal :=
  match m with
  | .wrCmd v => writeCmd v s
  | .wrStatus _ => .next s
  | .wrKeyLen v => .next (s.setKeyLen v)
  | .wrTagCap v => .next (s.setTagCap v)
  | .wrMsgLen n => .next (s.setMsgLen n)
  | .wrKey i b => .next (s.setKey (s.key.write i.val b))
  | .wrMsg i b => if s.phase.busy then .refused .msgWriteWhileBusy else .next (s.setMsg (s.msg.write i b))
  | .wrTag _ _ => .next s
  | .rdCmd => .next (s.observe (.cmd 0x00))
  | .rdStatus => .next (s.observe (.status (status s)))
  | .rdKeyLen => .next (s.observe (.keyLen s.keyLen))
  | .rdTagCap => .next (s.observe (.tagCap s.tagCap))
  | .rdMsgLen => .next (s.observe (.msgLen s.msgLen))
  | .rdTag i => .next (s.observe (.tag i s.tag[i]))
  | .reset => .next (hardReset s)

/-! ### The inputs -/

/-- Whether a pending input is taken in this step (log entry 4). Words at the internal selects wait until the core
has no step of its own, since the driver is "the only user of the engine and the codec" (42_mac_driver.md). -/
def Input.ready (i : Input) (s : State) : Bool :=
  match i with
  | .host atOnce _ => atOnce || quiescent s
  | .pass => true
  | .engreq _ => quiescent s
  | .rstep _ => quiescent s
  | .codec _ => quiescent s
  | .driveCodec _ _ => true

/-- Take an input. -/
def takeInput (i : Input) (s : State) : Host.Outcome State Fault Refusal :=
  match i with
  | .host _ m => hostStep m s
  | .pass => coreStep s
  | .engreq r => runSelect (.engreq r) s
  | .rstep c => runSelect (.rstep c) s
  | .codec c => runSelect (.codec c) s
  | .driveCodec b w => .next (s.setCodec { s.codec with inBytes := b, inWord := w })

/-- One step of the whole: the first pending input if it is ready, else the core's own step. -/
def nextStep (s : State) : Host.Outcome State Fault Refusal :=
  match s.inputs with
  | [] => coreStep s
  | i :: rest => if i.ready s then takeInput i (s.setInputs rest) else coreStep s

/-- Place a select word where the next step takes it. A `PHASE` code is placed in the `phase` register with the engine
idle, a command as a write to `CMD` made at once, the others at their internal select with the core without a step
of its own. -/
def placeSelect (w : Select) (s : State) : State :=
  match w with
  | .hostcmd op => s.setInputs (.host true (.wrCmd op) :: s.inputs)
  | .phase ph =>
    match phaseOfCode ph with
    | some p => ((s.setPhase p).setRidx 12).setInputs (.pass :: s.inputs)
    | none => s
  | .engreq r => (madeQuiescent s).setInputs (.engreq r :: s.inputs)
  | .rstep c => (madeQuiescent s).setInputs (.rstep c :: s.inputs)
  | .codec c => (madeQuiescent s).setInputs (.codec c :: s.inputs)
where
  /-- The state with no step of the core's own enabled. -/
  madeQuiescent (s : State) : State :=
    (if s.phase.busy then s.setPhase .idle else s).setRidx 12

end Sys2Proof.Machine
end

