-- ==== Sys2Proof/Machine/Step.lean ====
section
/-! DEFINITION. One step of the machine, and where the host's numbered word is placed for the next step. -/

namespace Sys2Proof.Machine

/-- One step: a pending input of the outside, or a step of the core (D1, R100). -/
def step (s : State) : Host.Outcome State Fault Refusal := nextStep s

/-- The state with the operation of the host's numbered word placed where the next step takes it (log entry 3: the
block fetches no program, R17). -/
def State.withFetchWord (s : State) (nbits w : Nat) : State := placeSelect (selectOfTableWord nbits w) s

end Sys2Proof.Machine
end

