-- ==== Sys2Proof/Machine/BigStep.lean ====
section
/-! DEFINITION. The big-step semantics: the phase operations of R93 to R96 with their permutation in them, and the
tag as one function of key and message (R92), which is the normative statement of what the tag is. The machine runs
the small steps of R100; R101 says they reach the same end. -/

namespace Sys2Proof.Machine

/-- `INIT` of R93: the load, then `PERM 12`. -/
def bigInit (c : Config) (key : Memory) : Words :=
  permute c 12 (initWords c (memRead key 0 8) (memRead key 8 8))

/-- `ABSORB_FULL` of R92 and R94 on block `b`: the four XORs, then `PERM 12`. -/
def bigAbsorbFull (c : Config) (msg : Memory) (b : Nat) (S : Words) : Words :=
  permute c 12 (absorbBlock S (memRead msg (32 * b) 32))

/-- `ABSORB_FULL` over the first `n` blocks, in message order (R94). -/
def bigAbsorbBlocks (c : Config) (msg : Memory) (n : Nat) (S : Words) : Words :=
  (List.range n).foldl (fun T b => bigAbsorbFull c msg b T) S

/-- `ABSORB_FINAL` of R95: pad, XOR, flip the domain-separation bit, then `PERM 12`. -/
def bigAbsorbFinal (c : Config) (msg : Memory) (len : Nat) (S : Words) : Words :=
  permute c 12 (domainSeparate (absorbBlock S (finalBlock msg len)))

/-- `SQUEEZE` of R96: words 0 and 1, big-endian. -/
def bigSqueeze (S : Words) : Vector Byte 16 := tagBytes S.x0 S.x1

/-- `compute_tag(K, M)` of R92, with `L` the message length. -/
def computeTag (c : Config) (key msg : Memory) (len : Nat) : Vector Byte 16 :=
  bigSqueeze (bigAbsorbFinal c msg len (bigAbsorbBlocks c msg (numBlocks len) (bigInit c key)))

end Sys2Proof.Machine
end

