-- ==== Sys2Proof/Machine/Instances.lean ====
section
/-! DEFINITION. Several instances of the block (R46, R124): independent copies of everything in the state, each with
its own host interface, sharing no mutable state. There are `N_INST ≥ 1` of them (R9, D27; log entry 14). Each has its
own parameter values `cfg`, equal or not, where the spec calls the constant table process-wide (R24) and says instances
may share it (R46, R124): DESIGN CHOICE, log entry 19. -/

namespace Sys2Proof.Machine

/-- One or more instances, each with its own state and parameter values (DESIGN CHOICE, log entry 19). -/
structure Instances where
  first  : State
  others : List State
deriving DecidableEq, Repr

namespace Instances

/-- `N_INST`. -/
def count (ss : Instances) : Nat := ss.others.length + 1

/-- Instance `k`, if there is one. -/
def get? (ss : Instances) : Nat → Option State
  | 0 => some ss.first
  | k + 1 => ss.others[k]?

/-- Replace the state of instance `k`; where there is no such instance nothing changes. -/
def set (ss : Instances) (k : Nat) (t : State) : Instances :=
  match k with
  | 0 => { ss with first := t }
  | k + 1 => { ss with others := ss.others.set k t }

/-- Put the instance's next state back in its place. -/
def put (ss : Instances) (k : Nat) : Host.Outcome State Fault Refusal → Host.Outcome Instances Fault Refusal
  | .next t => .next (ss.set k t)
  | .fault e => .fault e
  | .refused e => .refused e

/-- Instance `k` takes a step; where there is no such instance nothing happens. -/
def stepAt (ss : Instances) (k : Nat) : Host.Outcome Instances Fault Refusal :=
  match ss.get? k with
  | some s => ss.put k (step s)
  | none => .next ss

end Instances

end Sys2Proof.Machine
end

