-- ==== Sys2Proof/Safety.lean ====
section
/-! DEFINITION. The terms claims use: runs, the invariant, what a run of one computation counts, and what the host
can see. -/

namespace Sys2Proof.Machine

/-- Exactly `k` steps of the core alone answer `t`: the outside makes no move. -/
def coreRun : Nat → State → Host.Outcome State Fault Refusal
  | 0, s => .next s
  | k + 1, s =>
    match coreStep s with
    | .next t => coreRun k t
    | .fault e => .fault e
    | .refused e => .refused e

/-- `12·(NB + 2) + NB + 4`, the core steps of one computation (R101). -/
def computationSteps (len : Nat) : Nat := 12 * (numBlocks len + 2) + numBlocks len + 4

/-- What the sequencing state allows (R17 to R20, R22, R35): `blk` never exceeds `floor(LEN/32)`, it is 0 before the
first block and complete after the last; the engine is idle when the tag is extracted; `BUF` is written by
`ABSORB_FINAL` only and `TAG` holds a tag in `DONE` only. -/
def phaseInv (s : State) : Bool :=
  match s.phase with
  | .idle => decide (s.blk = 0) && decide (s.len = 0) && decide (s.buf = Vector.replicate 32 0) && decide (s.tag = Vector.replicate 16 0)
  | .init => decide (s.blk = 0) && decide (s.buf = Vector.replicate 32 0) && decide (s.tag = Vector.replicate 16 0)
  | .absorbFull =>
    decide (s.blk ≤ numBlocks s.len) && decide (s.buf = Vector.replicate 32 0) && decide (s.tag = Vector.replicate 16 0)
  | .absorbFinal => decide (s.blk = numBlocks s.len) && decide (s.tag = Vector.replicate 16 0)
  | .squeeze => decide (s.blk = numBlocks s.len) && decide (s.ridx = 12) && decide (s.tag = Vector.replicate 16 0)
  | .done => decide (s.blk = numBlocks s.len) && decide (s.buf = Vector.replicate 32 0)

/-- The invariant of the machine: what the sequencing state allows, and both host-owned spaces in canonical form,
`KEY` within its 16 bytes (R33). -/
def Inv (s : State) : Prop :=
  phaseInv s = true ∧ s.key.wf = true ∧ s.key.below 16 = true ∧ s.msg.wf = true

/-- The inputs of a host alone: no word at an internal select, which a host cannot reach (R63, R64). -/
def Input.fromHost : Input → Bool
  | .host _ _ => true
  | .pass => true
  | .engreq _ => false
  | .rstep _ => false
  | .codec _ => false
  | .driveCodec _ _ => false

/-- With a host alone outside: nothing but host moves is pending, and when the core is not busy the engine is idle and
`x` and `BUF` are zero, so nothing of a key or message is left in the block (R97, R128, R134). -/
def HostOnlyInv (s : State) : Prop :=
  s.inputs.all Input.fromHost = true ∧
    (s.phase.busy = false → s.ridx = 12 ∧ s.x = Words.zero ∧ s.buf = Vector.replicate 32 0)

/-- The core steps a busy core has still to take until `DONE` (R101, R138). -/
def stepsLeft (s : State) : Nat :=
  let rounds := 12 - s.ridx.val
  match s.phase with
  | .idle => 0
  | .init => rounds + 1 + 13 * (numBlocks s.len - s.blk) + 1 + 13 + 1
  | .absorbFull => rounds + 13 * (numBlocks s.len - s.blk) + 1 + 13 + 1
  | .absorbFinal => rounds + 2
  | .squeeze => 1
  | .done => 0

/-- What a read of the host can depend on: `STATUS`, `TAG` and the parameter registers (R14, R42). -/
def SameView (s t : State) : Prop :=
  s.phase = t.phase ∧ s.err = t.err ∧ s.tag = t.tag ∧ s.keyLen = t.keyLen ∧ s.tagCap = t.tagCap ∧ s.msgLen = t.msgLen

/-- Two states agree on all the sequencing state, the message length and the engine's progress, and may differ in
every data value (R81, R99, R137). -/
def SameControl (s t : State) : Prop :=
  s.phase = t.phase ∧ s.blk = t.blk ∧ s.ridx = t.ridx ∧ s.len = t.len

/-- The events of one computation, oldest first: the two key reads and the first request; for each complete block its
four reads and a request; the tail's read, unless it has no bytes, and the last request (R40, R88, R125). -/
def computationEvents (len : Nat) : List Event :=
  [.memRead .key 0 8, .memRead .key 8 8, .perm 12] ++
  (List.range (numBlocks len)).flatMap (fun b =>
    [.memRead .msg (32 * b) 8, .memRead .msg (32 * b + 8) 8, .memRead .msg (32 * b + 16) 8, .memRead .msg (32 * b + 24) 8, .perm 12]) ++
  (if tailLen len = 0 then [] else [.memRead .msg (tailAddr len) (tailLen len)]) ++ [.perm 12]

/-- The byte indices of a space that an event reads, in index order (R36). -/
def Event.bytesRead (sp : Space) : Event → List Nat
  | .perm _ => []
  | .memRead sp' a n => if sp' = sp then (List.range n).map (a + ·) else []

/-- Every byte of the two spaces reads as before. -/
def SameBytes (s t : State) : Prop := ∀ (sp : Space) (a : Nat), t.byteAt sp a = s.byteAt sp a

/-- The move is a read of the host. -/
def HostMove.isRead : HostMove → Bool
  | .rdCmd => true
  | .rdStatus => true
  | .rdKeyLen => true
  | .rdTagCap => true
  | .rdMsgLen => true
  | .rdTag _ => true
  | .wrCmd _ => false
  | .wrStatus _ => false
  | .wrKeyLen _ => false
  | .wrTagCap _ => false
  | .wrMsgLen _ => false
  | .wrKey _ _ => false
  | .wrMsg _ _ => false
  | .wrTag _ _ => false
  | .reset => false

end Sys2Proof.Machine
end

