-- ==== Sys2Proof/Certificates/Slice0/Obligations.lean ====
section
/-! DEFINITION. The statements for the provers. -/

open Sys2Proof Sys2Proof.Machine

/-! ### Encodings (30_encoding.md) -/

/-- R60, R64: decoding an encoded operation gives it back, with every legal operand. -/
def Obligations.DecodeOfEncodeGivesTheOperation : Prop :=
  ∀ i : Instr, i.wellFormed = true → decode (encode i) = .ok i

/-- R60, R64: an operation is decoded only from a word of its own opcode-table row, with legal operands; and no word
fits the rows of two different operations' formats and patterns. -/
def Obligations.DecodedOperationFitsItsTableRow : Prop :=
  ∀ (w : Select) (i : Instr), decode w = .ok i →
    i.wellFormed = true ∧ i.row.fits w = true ∧ ∀ j : Instr, j.row.fits w = true → j.row = i.row

/-- R64: which select words stand for no operation, and that every other word stands for one. -/
def Obligations.ExactlyTheReservedSelectsAreRejected : Prop :=
  ∀ w : Select, (∃ e : DecodeError, decode w = .rejected e) ↔
    match w with
    | .hostcmd op => op ≠ 0x01#8
    | .phase ph => ph = 6#3 ∨ ph = 7#3
    | .engreq r => r = 0#4 ∨ r = 13#4 ∨ r = 14#4 ∨ r = 15#4
    | .rstep c => (c.extractLsb' 4 2 = 0#2 ∨ c.extractLsb' 4 2 = 3#2) ∧ 12 ≤ (c.extractLsb' 0 4).toNat
    | .codec c => c.extractLsb' 6 2 = 3#2

/-- R60: words written out from the encoding column, one or more of every format, and the don't-care bits. -/
def Obligations.SelectWordsDecodeAsTheTableWritesThem : Prop :=
  decode (.rstep 0b000101#6) = .ok (.addc 5) ∧ decode (.rstep 0b110110#6) = .ok (.round 6) ∧
  (∀ x : BitVec 4, decode (.rstep (0b01#2 ++ x)) = .ok .subs ∧ decode (.rstep (0b10#2 ++ x)) = .ok .diff) ∧
  decode (.engreq 0b1100#4) = .ok (.perm 12) ∧
  (∀ x : BitVec 6, decode (.codec (0b00#2 ++ x)) = .ok .b2w ∧ decode (.codec (0b01#2 ++ x)) = .ok .w2b) ∧
  decode (.codec 0b10010011#8) = .ok (.rotr 19) ∧
  decode (.hostcmd 0b00000001#8) = .ok .computeTag ∧
  decode (.phase 0b000#3) = .ok .idle ∧ decode (.phase 0b001#3) = .ok .init ∧
  decode (.phase 0b010#3) = .ok .absorbFull ∧ decode (.phase 0b011#3) = .ok .absorbFinal ∧
  decode (.phase 0b100#3) = .ok .squeeze ∧ decode (.phase 0b101#3) = .ok .done

/-! ### The byte/word codec (41_byte_word_codec.md) -/

/-- R83: `B2W` completes in every state and its result is `b[0]·2^56 + .. + b[7]`, which has `b[k]` in bits
`63 − 8k : 56 − 8k`; nothing but the result wires changes. That the codec's operand and result are held on wires in the
state is the model's choice (log entry 5). -/
def Obligations.B2wIsBigEndian : Prop :=
  ∀ s : State, ∃ w : Word,
    exec .b2w s = .next (s.setCodec { s.codec with outWord := w }) ∧
    w.toNat = s.codec.inBytes[0].toNat * 2 ^ 56 + s.codec.inBytes[1].toNat * 2 ^ 48 + s.codec.inBytes[2].toNat * 2 ^ 40 +
      s.codec.inBytes[3].toNat * 2 ^ 32 + s.codec.inBytes[4].toNat * 2 ^ 24 + s.codec.inBytes[5].toNat * 2 ^ 16 +
      s.codec.inBytes[6].toNat * 2 ^ 8 + s.codec.inBytes[7].toNat ∧
    ∀ k : Fin 8, w.extractLsb' (56 - 8 * k.val) 8 = s.codec.inBytes[k]

/-- R84: `W2B` completes in every state and byte `k` of its result is bits `63 − 8k : 56 − 8k` of the word.
The wires are the model's choice (log entry 5). -/
def Obligations.W2bGivesTheBytesOfTheWord : Prop :=
  ∀ s : State, ∃ b : Vector Byte 8,
    exec .w2b s = .next (s.setCodec { s.codec with outBytes := b }) ∧
    ∀ (k : Fin 8) (j : Fin 8), b[k][j] = s.codec.inWord.getLsbD (56 - 8 * k.val + j.val)

/-- R85: `B2W` and `W2B` are inverse. -/
def Obligations.CodecFunctionsAreInverse : Prop :=
  (∀ b : Vector Byte 8, w2b (b2w b) = b) ∧ (∀ w : Word, b2w (w2b w) = w)

/-- R86: `ROTR n` completes in every state with every amount. With `ROT_DIR = right` bit `k` of the result is bit
`(k + n) mod 64` of the operand, with `left` bit `(k + 64 − n) mod 64`. The wires are the model's choice (log entry 5). -/
def Obligations.RotrMovesBitsTowardBitZero : Prop :=
  ∀ (s : State) (n : BitVec 6), ∃ w : Word,
    exec (.rotr n) s = .next (s.setCodec { s.codec with outWord := w }) ∧
    (s.cfg.rotDir = .right → ∀ k : Fin 64, w[k] = s.codec.inWord.getLsbD ((k.val + n.toNat) % 64)) ∧
    (s.cfg.rotDir = .left → ∀ k : Fin 64, w[k] = s.codec.inWord.getLsbD ((k.val + 64 - n.toNat) % 64))

/-- R87: rotating by `n` and then by `64 − n` is the identity, in either direction; rotations add up modulo 64; and
rotation distributes over XOR, AND and complement. -/
def Obligations.RotationLaws : Prop :=
  (∀ (c : Config) (x : Word) (n : Nat), 1 ≤ n → n ≤ 63 →
    rotate c (rotate c x (BitVec.ofNat 6 n)) (BitVec.ofNat 6 (64 - n)) = x) ∧
  (∀ (w : Word) (m n : BitVec 6), rotr (rotr w m) n = rotr w (BitVec.ofNat 6 ((m.toNat + n.toNat) % 64))) ∧
  (∀ (v w : Word) (n : BitVec 6), rotr (v ^^^ w) n = rotr v n ^^^ rotr w n ∧ rotr (v &&& w) n = rotr v n &&& rotr w n ∧
    rotr (~~~w) n = ~~~(rotr w n))

/-! ### The permutation engine (40_permutation_engine.md) -/

/-- R68: `ADDC i` completes in every state for `i` in 0..11, XORs `RC[i]` into word 2, and changes nothing else. -/
def Obligations.AddcXorsTheRoundConstantIntoWordTwo : Prop :=
  ∀ (s : State) (i : BitVec 4) (h : i.toNat < 12),
    exec (.addc i) s = .next (s.setX ⟨s.x.x0, s.x.x1, s.x.x2 ^^^ s.cfg.rc[i.toNat], s.x.x3, s.x.x4⟩)

/-- R69: `SUBS` completes in every state; its result is that of the sequence of word lines, written here as
substitutions into the values after the three opening lines, `a0 .. a4`. The target word of each AND term is the
spec's own decision (D25, log entry 8). -/
def Obligations.SubsRunsTheWordSequence : Prop :=
  ∀ s : State, ∃ t : Words, exec .subs s = .next (s.setX t) ∧
    ∀ a0 a1 a2 a3 a4 : Word,
      a0 = s.x.x0 ^^^ s.x.x4 → a1 = s.x.x1 → a2 = s.x.x2 ^^^ s.x.x1 → a3 = s.x.x3 → a4 = s.x.x4 ^^^ s.x.x3 →
      t.x0 = (a0 ^^^ (~~~a1 &&& a2)) ^^^ (a4 ^^^ (~~~a0 &&& a1)) ∧
      t.x1 = (a1 ^^^ (~~~a2 &&& a3)) ^^^ (a0 ^^^ (~~~a1 &&& a2)) ∧
      t.x2 = ~~~(a2 ^^^ (~~~a3 &&& a4)) ∧
      t.x3 = (a3 ^^^ (~~~a4 &&& a0)) ^^^ (a2 ^^^ (~~~a3 &&& a4)) ∧
      t.x4 = a4 ^^^ (~~~a0 &&& a1)

/-- R70, R71: the substitution layer is 64 independent copies of one 5-bit function: on every lane `SUBS` is the
published table, a bijection on 0..31. The spec computed the table from R69,
whose term targets are its own decision (D25, log entry 8). -/
def Obligations.SubsFollowsTheTruthTable : Prop :=
  (∀ (S : Words) (b : Fin 64), lane (substitute S) b = sboxTable[(lane S b).toNat]) ∧
  Function.Bijective (fun v : BitVec 5 => sboxTable[v.toNat])

/-- R73: `DIFF` completes in every state and XORs each word with two rotations of itself by its own amounts, in the
direction the configuration gives; nothing else changes. -/
def Obligations.DiffXorsTwoRotationsOfEachWord : Prop :=
  ∀ s : State, exec .diff s = .next (s.setX
    ⟨s.x.x0 ^^^ rotate s.cfg s.x.x0 19 ^^^ rotate s.cfg s.x.x0 28,
     s.x.x1 ^^^ rotate s.cfg s.x.x1 61 ^^^ rotate s.cfg s.x.x1 39,
     s.x.x2 ^^^ rotate s.cfg s.x.x2 1 ^^^ rotate s.cfg s.x.x2 6,
     s.x.x3 ^^^ rotate s.cfg s.x.x3 10 ^^^ rotate s.cfg s.x.x3 17,
     s.x.x4 ^^^ rotate s.cfg s.x.x4 7 ^^^ rotate s.cfg s.x.x4 41⟩)

/-- R73, corner cases: the layer is linear over XOR word by word, and the all-zero and all-ones words are fixed; for
every value of the parameters. -/
def Obligations.DiffIsLinearWithFixedPoints : Prop :=
  ∀ (c : Config) (i : Fin 5),
    (∀ a b : Word, diffuseWord c i (a ^^^ b) = diffuseWord c i a ^^^ diffuseWord c i b) ∧
    diffuseWord c i 0 = 0 ∧ diffuseWord c i (BitVec.allOnes 64) = BitVec.allOnes 64

/-- R74: `ADDC i` is its own inverse, and each layer is a bijection on the 320-bit state, for every value of the
parameters. -/
def Obligations.LayersAreBijections : Prop :=
  ∀ c : Config,
    (∀ (i : Fin 12) (S : Words), addConstant c i (addConstant c i S) = S) ∧
    Function.Bijective substitute ∧ Function.Bijective (diffuse c)

/-- R74: every round and every permutation with a legal round count is a bijection on the 320-bit state, for every value
of the parameters. The term targets of the S-box are presumed (log entry 8). -/
def Obligations.PermutationIsABijection : Prop :=
  ∀ c : Config, (∀ i : Fin 12, Function.Bijective (roundWords c i)) ∧ ∀ r : Nat, 1 ≤ r → r ≤ 12 → Function.Bijective (permute c r)

/-- R75: `ROUND i` completes in every state for `i` in 0..11, with the end state of `ADDC i`, then `SUBS`, then
`DIFF`; only `x` changes. -/
def Obligations.RoundIsTheThreeLayersInOrder : Prop :=
  ∀ (s : State) (i : BitVec 4), i.toNat < 12 → ∃ a b t : State,
    exec (.addc i) s = .next a ∧ exec .subs a = .next b ∧ exec .diff b = .next t ∧ exec (.round i) s = .next t ∧
    t = s.setX t.x

/-- R64: `ADDC i` and `ROUND i` with `i` in 12..15 are refused in every state. -/
def Obligations.RoundIndexAboveElevenIsRefused : Prop :=
  ∀ (s : State) (i : BitVec 4), 12 ≤ i.toNat →
    exec (.addc i) s = .refused (.roundIndexOutOfRange i) ∧ exec (.round i) s = .refused (.roundIndexOutOfRange i)

/-- R77: with the engine idle and `r` in 1..12, `PERM r` completes: `ridx` becomes `12 − r`, and nothing else changes but
the event history, which takes the request (R125). -/
def Obligations.PermRequestSetsTheFirstRoundIndex : Prop :=
  ∀ (s : State) (r : BitVec 4), s.ridx = 12 → 1 ≤ r.toNat → r.toNat ≤ 12 → ∃ t : State,
    exec (.perm r) s = .next t ∧ t.ridx.val = 12 - r.toNat ∧ t.events = .perm r :: s.events ∧
    t = (s.setRidx t.ridx).setEvents t.events

/-- R78: a round count outside 1..12 is refused in every state, and no step of the core requests any but 12. -/
def Obligations.RoundCountOutOfRangeIsRefused : Prop :=
  (∀ (s : State) (r : BitVec 4), r.toNat = 0 ∨ 13 ≤ r.toNat → exec (.perm r) s = .refused (.roundCountOutOfRange r)) ∧
  (∀ s t : State, coreStep s = .next t → ∃ es : List Event, t.events = es ++ s.events ∧
    ∀ r : BitVec 4, Event.perm r ∈ es → r = 12)

/-- R76, R77: after a request `PERM r`, exactly `r` core steps leave the engine idle with `x` the result of the last
`r` rounds of the schedule in increasing order; after `k < r` of them it is still running with round `12 − r + k`
next. Nothing else changes but the event history. That the rounds run in every phase, also in those where the driver
requests no permutation, is the model's choice (log entry 12). -/
def Obligations.PermRunsTheLastRoundsOfTheSchedule : Prop :=
  ∀ (s : State) (r : BitVec 4), s.ridx = 12 → 1 ≤ r.toNat → r.toNat ≤ 12 → ∃ s0 t : State,
    exec (.perm r) s = .next s0 ∧ coreRun r.toNat s0 = .next t ∧
    t = (s.setX (permute s.cfg r.toNat s.x)).setEvents (.perm r :: s.events) ∧
    ∀ k : Nat, k < r.toNat → ∃ u : State, coreRun k s0 = .next u ∧ u.ridx.val = 12 - r.toNat + k

/-- R57, R76: `PERM 12` is the rounds `0 .. 11 − r` and then `PERM r`; `PERM 1` is `ROUND 11`; for every value of the
parameters. -/
def Obligations.ReducedPermutationIsTheEndOfTheFullOne : Prop :=
  ∀ (c : Config) (S : Words), permute c 1 S = roundWords c 11 S ∧
    ∀ r : Nat, r ≤ 12 → permute c 12 S = permute c r ((schedule.take (12 - r)).foldl (fun T i => roundWords c i T) S)

/-! ### The host command (42_mac_driver.md section 1, 60_exceptions.md) -/

/-- R91: the step that handles a write of value `v` to `CMD`, all its branches in their order. -/
def Obligations.CommandWriteFollowsItsBranches : Prop :=
  ∀ (s : State) (v : BitVec 8),
    (s.phase = .init ∨ s.phase = .absorbFull ∨ s.phase = .absorbFinal ∨ s.phase = .squeeze →
      hostStep (.wrCmd v) s = .next s) ∧
    (s.phase = .idle ∨ s.phase = .done →
      (v ≠ 0x01#8 → hostStep (.wrCmd v) s = .next (s.setErr .illegalCommand)) ∧
      (v = 0x01#8 → s.keyLen ≠ 16#8 → hostStep (.wrCmd v) s = .next (s.setErr .invalidKeyLength)) ∧
      (v = 0x01#8 → s.keyLen = 16#8 → s.tagCap.toNat < 16 → hostStep (.wrCmd v) s = .next (s.setErr .bufferTooSmall)) ∧
      (v = 0x01#8 → s.keyLen = 16#8 → 16 ≤ s.tagCap.toNat → ∃ t : State, hostStep (.wrCmd v) s = .next t ∧
        t.err = .none ∧ t.len = s.msgLen ∧ t.blk = 0 ∧ (∀ k : Fin 16, t.tag[k] = 0) ∧
        t.x = ⟨s.cfg.ivMac, b2w (memRead s.key 0 8), b2w (memRead s.key 8 8), 0, 0⟩ ∧ t.ridx = 0 ∧ t.phase = .init))

/-- R91, R93: with the core not busy, `KEY_LEN = 16` and `TAG_CAP ≥ 16`, `COMPUTE_TAG` completes with the start of a
computation: the latched length, the cleared tag and error, the INIT load and the request `PERM 12`; and nothing else
changes but the event history. -/
def Obligations.ComputeTagStartsAComputation : Prop :=
  ∀ s : State, s.phase = .idle ∨ s.phase = .done → s.keyLen = 16#8 → 16 ≤ s.tagCap.toNat → ∃ t : State,
    exec .computeTag s = .next t ∧
    t.err = .none ∧ t.len = s.msgLen ∧ t.blk = 0 ∧ t.tag = Vector.replicate 16 0 ∧
    t.x = ⟨s.cfg.ivMac, b2w (memRead s.key 0 8), b2w (memRead s.key 8 8), 0, 0⟩ ∧ t.ridx = 0 ∧ t.phase = .init ∧
    t.buf = s.buf ∧ t.keyLen = s.keyLen ∧ t.tagCap = s.tagCap ∧ t.msgLen = s.msgLen ∧ t.codec = s.codec ∧
    t.inputs = s.inputs ∧ t.reads = s.reads ∧ t.cfg = s.cfg ∧ SameBytes s t

/-- R50: at the start of a computation `KEY[k]` is bits `63 − 8k : 56 − 8k` of `x[1]` for `k` in 0..7, and `KEY[8 + k]`
those of `x[2]`. -/
def Obligations.KeyBytesEnterWordsOneAndTwo : Prop :=
  ∀ s : State, s.phase = .idle ∨ s.phase = .done → s.keyLen = 16#8 → 16 ≤ s.tagCap.toNat → ∃ t : State,
    exec .computeTag s = .next t ∧ ∀ k : Fin 8,
      t.x.x1.extractLsb' (56 - 8 * k.val) 8 = s.byteAt .key k.val ∧
      t.x.x2.extractLsb' (56 - 8 * k.val) 8 = s.byteAt .key (8 + k.val)

/-- R114 to R119: a write to `CMD` of any value while busy has no effect at all; else the code a rejected command
leaves in `ERR`, by the priority command value, key length, buffer, and that a rejection writes `ERR` and nothing else:
no register, no byte, no read, and no step of the core becomes enabled. -/
def Obligations.RejectionWritesItsCodeAndNothingElse : Prop :=
  ∀ (s : State) (v : BitVec 8),
   (s.phase.busy = true → hostStep (.wrCmd v) s = .next s) ∧
   (s.phase.busy = false → (v ≠ 0x01#8 ∨ s.keyLen ≠ 16#8 ∨ s.tagCap.toNat < 16) → ∃ t : State,
    hostStep (.wrCmd v) s = .next t ∧
    t.err.code = (if v ≠ 0x01#8 then 3 else if s.keyLen ≠ 16#8 then 1 else 2) ∧
    t.phase = s.phase ∧ t.x = s.x ∧ t.blk = s.blk ∧ t.ridx = s.ridx ∧ t.len = s.len ∧ t.buf = s.buf ∧ t.tag = s.tag ∧
    t.keyLen = s.keyLen ∧ t.tagCap = s.tagCap ∧ t.msgLen = s.msgLen ∧ SameBytes s t ∧ t.events = s.events ∧
    t.codec = s.codec ∧ t.inputs = s.inputs ∧ t.reads = s.reads ∧ t.cfg = s.cfg ∧ quiescent t = quiescent s)

/-! ### The phase operations (42_mac_driver.md sections 2 and 3) -/

/-- R98: `IDLE` completes in every state and changes nothing; R97: `DONE` completes in every state, with `x` and `BUF`
zeroed and nothing else changed. That the operation `DONE` zeroes them in every state, and that a core with no step of its
own stays as it is, are the model's choice (log entry 9). -/
def Obligations.IdleAndDoneOperations : Prop :=
  ∀ s : State, exec .idle s = .next s ∧
    exec .done s = .next ((s.setX ⟨0, 0, 0, 0, 0⟩).setBuf (Vector.replicate 32 0))

/-- R100, rows T1, T2 and T5: in `INIT` and in `ABSORB_FINAL`, a round of the round controller while `ridx ≤ 11`, and
then `phase <- ABSORB_FULL` and `phase <- SQUEEZE`. -/
def Obligations.InitAndAbsorbFinalRunRoundsThenMoveOn : Prop :=
  ∀ s : State,
    (s.phase = .init →
      (∀ h : s.ridx.val < 12, exec .init s =
        .next ((s.setX (roundWords s.cfg ⟨s.ridx.val, h⟩ s.x)).setRidx ⟨s.ridx.val + 1, Nat.succ_lt_succ h⟩)) ∧
      (s.ridx = 12 → exec .init s = .next (s.setPhase .absorbFull))) ∧
    (s.phase = .absorbFinal →
      (∀ h : s.ridx.val < 12, exec .absorbFinal s =
        .next ((s.setX (roundWords s.cfg ⟨s.ridx.val, h⟩ s.x)).setRidx ⟨s.ridx.val + 1, Nat.succ_lt_succ h⟩)) ∧
      (s.ridx = 12 → exec .absorbFinal s = .next (s.setPhase .squeeze)))

/-- R100, rows T1 and T3: in `ABSORB_FULL`, a round while `ridx ≤ 11`; with the engine idle and a complete block left,
the block's four chunks are XORed into words 0 to 3, `blk` is counted and `PERM 12` requested. -/
def Obligations.AbsorbFullRunsRoundsAndAbsorbsBlocks : Prop :=
  ∀ s : State, s.phase = .absorbFull →
    (∀ h : s.ridx.val < 12, exec .absorbFull s =
      .next ((s.setX (roundWords s.cfg ⟨s.ridx.val, h⟩ s.x)).setRidx ⟨s.ridx.val + 1, Nat.succ_lt_succ h⟩)) ∧
    (s.ridx = 12 → s.blk < s.len / 32 → ∃ t : State, exec .absorbFull s = .next t ∧
      t.x = ⟨s.x.x0 ^^^ b2w (memRead s.msg (32 * s.blk) 8), s.x.x1 ^^^ b2w (memRead s.msg (32 * s.blk + 8) 8),
        s.x.x2 ^^^ b2w (memRead s.msg (32 * s.blk + 16) 8), s.x.x3 ^^^ b2w (memRead s.msg (32 * s.blk + 24) 8), s.x.x4⟩ ∧
      t.blk = s.blk + 1 ∧ t.ridx = 0 ∧
      t = (((s.setX t.x).setBlk t.blk).setRidx t.ridx).setEvents t.events)

/-- R52, R53, R95, R100 row T4: in `ABSORB_FULL` with the engine idle and no complete block left, `BUF` becomes the tail
bytes, then `0x80`, then zeros; its four chunks are XORed into words 0 to 3; bit 0 of word 4 flips; `PERM 12` is
requested and `phase <- ABSORB_FINAL`. -/
def Obligations.FinalBlockLoadPadsAbsorbsAndSeparates : Prop :=
  ∀ s : State, s.phase = .absorbFull → s.ridx = 12 → s.blk = s.len / 32 → ∃ t : State,
    exec .absorbFull s = .next t ∧
    (∀ k : Fin 32, t.buf[k] =
      if k.val < s.len % 32 then s.byteAt .msg (32 * (s.len / 32) + k.val) else if k.val = s.len % 32 then 0x80 else 0x00) ∧
    t.x = ⟨s.x.x0 ^^^ b2w (blockChunk t.buf 0), s.x.x1 ^^^ b2w (blockChunk t.buf 1), s.x.x2 ^^^ b2w (blockChunk t.buf 2),
      s.x.x3 ^^^ b2w (blockChunk t.buf 3), s.x.x4 ^^^ 0x0000000000000001⟩ ∧
    t.ridx = 0 ∧ t.phase = .absorbFinal ∧
    t = ((((s.setX t.x).setBuf t.buf).setRidx t.ridx).setPhase t.phase).setEvents t.events

/-- R52 in word terms: the padding of a tail of zero bytes flips exactly bit `63 − 8·(t mod 8)` of word `floor(t/8)`, and
an absorption never changes word 4. -/
def Obligations.PaddingFlipsOneBitOfTheRate : Prop :=
  ∀ (S : Words) (t : Fin 32) (i : Fin 5),
    (absorbBlock S (padBlock t.val (Vector.replicate t.val 0))).get i =
      if i.val = t.val / 8 then S.get i ^^^ BitVec.twoPow 64 (63 - 8 * (t.val % 8)) else S.get i

/-- R54, R96, R97: `SQUEEZE` completes in every state: `TAG[k]` is bits `63 − 8k : 56 − 8k` of word 0 and `TAG[8 + k]`
those of word 1, then `x` and `BUF` are zeroed and `phase <- DONE`; nothing else changes. That it does so in a state of another phase too,
or with rounds pending, is the model's choice (log entry 12). -/
def Obligations.SqueezeWritesTheTagAndDiscards : Prop :=
  ∀ s : State, ∃ t : State, exec .squeeze s = .next t ∧
    (∀ k : Fin 8, t.tag[k.val] = s.x.x0.extractLsb' (56 - 8 * k.val) 8 ∧
      t.tag[8 + k.val] = s.x.x1.extractLsb' (56 - 8 * k.val) 8) ∧
    t = (((s.setTag t.tag).setX ⟨0, 0, 0, 0, 0⟩).setBuf (Vector.replicate 32 0)).setPhase .done

/-! ### Frames -/

/-- The engine's operations change `x` alone, `ADDC` word 2 alone, `PERM` the round controller alone; no byte of `KEY`
or `MSG` changes (40_permutation_engine.md: the engine "reads and writes `x[0..4]` and `ridx` and nothing else"). -/
def Obligations.EngineOperationsFrame : Prop :=
  ∀ (s t : State) (i : BitVec 4),
    (exec .subs s = .next t ∨ exec .diff s = .next t ∨ exec (.round i) s = .next t → t = s.setX t.x ∧ SameBytes s t) ∧
    (exec (.addc i) s = .next t → t = s.setX { s.x with x2 := t.x.x2 } ∧ SameBytes s t) ∧
    (exec (.perm i) s = .next t → t = (s.setRidx t.ridx).setEvents t.events ∧ SameBytes s t)

/-- The codec's operations change the result wires alone: no register of 10_state.md, no operand, no byte. -/
def Obligations.CodecOperationsFrame : Prop :=
  ∀ (s t : State) (n : BitVec 6),
    (exec .b2w s = .next t ∨ exec (.rotr n) s = .next t →
      t = s.setCodec { s.codec with outWord := t.codec.outWord } ∧ SameBytes s t) ∧
    (exec .w2b s = .next t → t = s.setCodec { s.codec with outBytes := t.codec.outBytes } ∧ SameBytes s t)

/-- What the driver's operations leave unchanged, in every state: the parameter registers and both byte spaces always,
and beyond that each operation all but what its rule writes. -/
def Obligations.DriverOperationsFrame : Prop :=
  ∀ s t : State,
    (exec .computeTag s = .next t → t.buf = s.buf ∧ t.keyLen = s.keyLen ∧ t.tagCap = s.tagCap ∧ t.msgLen = s.msgLen ∧
      t.codec = s.codec ∧ t.inputs = s.inputs ∧ t.reads = s.reads ∧ t.cfg = s.cfg ∧ SameBytes s t) ∧
    (exec .init s = .next t ∨ exec .absorbFinal s = .next t →
      t = ((s.setX t.x).setRidx t.ridx).setPhase t.phase ∧ SameBytes s t) ∧
    (exec .absorbFull s = .next t →
      t = (((((s.setX t.x).setRidx t.ridx).setBlk t.blk).setBuf t.buf).setPhase t.phase).setEvents t.events ∧
        t.x.x4 = (if s.ridx.val < 12 then t.x.x4 else if s.blk < s.len / 32 then s.x.x4 else s.x.x4 ^^^ 1) ∧ SameBytes s t) ∧
    (exec .squeeze s = .next t → t = (((s.setTag t.tag).setX t.x).setBuf t.buf).setPhase t.phase ∧ SameBytes s t) ∧
    (exec .done s = .next t → t = (s.setX t.x).setBuf t.buf ∧ SameBytes s t) ∧
    (exec .idle s = .next t → t = s)

/-! ### The step -/

/-- R17, R62, R63, R65: a step runs the operation it decodes. With no input to take, the core fetches the round
controller's `RSTEP` word while a permutation is in progress and the `PHASE` code otherwise, and after a round of the
controller `ridx` moves on by one (R77). A move of the host, once taken, is that move on the state without that input,
whichever move it is, and a command byte that decodes is its operation; a word at an internal select is the operation it
decodes to, and a reserved one stops the step by name (R64, R78); new values on the codec's operand wires are put there.
When a pending input is taken is the model's choice (log entry 4). -/
def Obligations.StepRunsTheDecodedOperation : Prop :=
  ∀ (s : State) (i : Instr) (inp : Input) (rest : List Input),
    (s.inputs = [] ∨ (s.inputs = inp :: rest ∧ inp.ready s = false) → decode (fetch s) = .ok i →
      step s = onNext (advance s) (exec i s)) ∧
    (s.inputs = .pass :: rest → decode (fetch s) = .ok i → step s = onNext (advance s) (exec i (s.setInputs rest))) ∧
    (∀ (b : Bool) (m : HostMove), s.inputs = .host b m :: rest → b = true ∨ quiescent s = true →
      step s = hostStep m (s.setInputs rest)) ∧
    (∀ (b : Bool) (v : BitVec 8), s.inputs = .host b (.wrCmd v) :: rest → b = true ∨ quiescent s = true →
      decode (.hostcmd v) = .ok i → step s = exec i (s.setInputs rest)) ∧
    (∀ w : BitVec 4, s.inputs = .engreq w :: rest → quiescent s = true →
      (decode (.engreq w) = .ok i → step s = exec i (s.setInputs rest)) ∧
      (w.toNat = 0 ∨ 13 ≤ w.toNat → step s = .refused (.roundCountOutOfRange w))) ∧
    (∀ (l : BitVec 2) (x : BitVec 4), s.inputs = .rstep (l ++ x) :: rest → quiescent s = true →
      (decode (.rstep (l ++ x)) = .ok i → step s = exec i (s.setInputs rest)) ∧
      (l = 0#2 ∨ l = 3#2 → 12 ≤ x.toNat → step s = .refused (.roundIndexOutOfRange x))) ∧
    (∀ (f : BitVec 2) (n : BitVec 6), s.inputs = .codec (f ++ n) :: rest → quiescent s = true →
      (decode (.codec (f ++ n)) = .ok i → step s = exec i (s.setInputs rest)) ∧
      (f = 3#2 → step s = .refused (.reservedCodec n))) ∧
    (∀ (b : Vector Byte 8) (w : Word), s.inputs = .driveCodec b w :: rest →
      step s = .next ((s.setInputs rest).setCodec { s.codec with inBytes := b, inWord := w })) ∧
    (∀ h : s.ridx.val < 12, fetch s = .rstep (0b11#2 ++ BitVec.ofNat 4 s.ridx.val) ∧
      ∀ t : State, advance s t = t.setRidx ⟨s.ridx.val + 1, Nat.succ_lt_succ h⟩) ∧
    (s.ridx = 12 → fetch s = .phase s.phase.code ∧ ∀ t : State, advance s t = t)

/-- The operation of a word that `withFetchWord` places is the one the very next step runs, on a state that keeps the
pending inputs, both byte spaces, the parameter registers and values, `x`, `BUF`, `TAG` and `ERR`.
Which word a number stands for and where it is placed are the model's choice (log entries 2 and 3). -/
def Obligations.PlacedWordRunsNext : Prop :=
  ∀ (s : State) (nbits w : Nat) (i : Instr), decodeTableWord nbits w = some i → ∃ s' : State,
    step (s.withFetchWord nbits w) = exec i s' ∧
    s'.inputs = s.inputs ∧ s'.key = s.key ∧ s'.msg = s.msg ∧ s'.keyLen = s.keyLen ∧ s'.tagCap = s.tagCap ∧
    s'.msgLen = s.msgLen ∧ s'.x = s.x ∧ s'.buf = s.buf ∧ s'.tag = s.tag ∧ s'.err = s.err ∧ s'.len = s.len ∧ s'.blk = s.blk ∧
    s'.cfg = s.cfg

/-! ### The whole computation -/

/-- R92, R101: an accepted `COMPUTE_TAG` and then exactly `12·(NB + 2) + NB + 4` core steps end in `DONE`, busy until
the last of them; the tag is `compute_tag(KEY, MSG[0..LEN−1])` of R92, `x` and `BUF` are zero, and the engine idle. -/
def Obligations.ComputationEndsInDoneWithTheTag : Prop :=
  ∀ s : State, s.phase = .idle ∨ s.phase = .done → s.keyLen = 16#8 → 16 ≤ s.tagCap.toNat → ∃ s0 t : State,
    exec .computeTag s = .next s0 ∧
    coreRun (12 * (s.msgLen / 32 + 2) + s.msgLen / 32 + 4) s0 = .next t ∧
    (∀ k : Nat, k < 12 * (s.msgLen / 32 + 2) + s.msgLen / 32 + 4 → ∃ u : State, coreRun k s0 = .next u ∧ u.phase.busy = true) ∧
    t.phase = .done ∧ t.tag = computeTag s.cfg s.key s.msg s.msgLen ∧ t.x = Words.zero ∧ t.buf = Vector.replicate 32 0 ∧
    t.ridx = 12 ∧ t.err = .none ∧ t.len = s.msgLen ∧ t.blk = s.msgLen / 32 ∧
    t.keyLen = s.keyLen ∧ t.tagCap = s.tagCap ∧ t.msgLen = s.msgLen ∧ t.key = s.key ∧ t.msg = s.msg ∧ t.inputs = s.inputs ∧
    t.cfg = s.cfg

/-- R40, R88, R102, R125: what that run reads and requests, in order; so the permutations requested are `NB + 2`, all
with round count 12. The order of the history and of the reads within one step is the model's choice (log entry 15). -/
def Obligations.ComputationReadsAndRequests : Prop :=
  ∀ s : State, s.phase = .idle ∨ s.phase = .done → s.keyLen = 16#8 → 16 ≤ s.tagCap.toNat → ∃ s0 t : State,
    exec .computeTag s = .next s0 ∧ coreRun (computationSteps s.msgLen) s0 = .next t ∧
    t.events = (computationEvents s.msgLen).reverse ++ s.events ∧
    (computationEvents s.msgLen).count (.perm 12) = s.msgLen / 32 + 2

/-- R34, R40: the events that the run of one computation adds to the history, oldest first, read each message byte once
and each key byte once, in increasing index order, and no index at or above the length. The order of the reads within one
step is the model's choice (log entry 15). -/
def Obligations.EachInputByteIsReadOnceInOrder : Prop :=
  ∀ s : State, s.phase = .idle ∨ s.phase = .done → s.keyLen = 16#8 → 16 ≤ s.tagCap.toNat → ∃ (s0 t : State) (es : List Event),
    exec .computeTag s = .next s0 ∧ coreRun (computationSteps s.msgLen) s0 = .next t ∧ t.phase = .done ∧
    t.events = es.reverse ++ s.events ∧
    es.flatMap (Event.bytesRead .msg) = List.range s.msgLen ∧ es.flatMap (Event.bytesRead .key) = List.range 16

/-- R104: the tag is a function of `KEY[0..15]`, `MSG[0..LEN−1]`, `LEN` and the parameters alone. -/
def Obligations.TagDependsOnKeyAndMessageBytesAlone : Prop :=
  ∀ (c : Config) (key key' msg msg' : Memory) (len : Nat),
    (∀ a : Nat, a < 16 → key.read a = key'.read a) → (∀ a : Nat, a < len → msg.read a = msg'.read a) →
    computeTag c key msg len = computeTag c key' msg' len

/-- R105: for one state before the final block, two different tails give different states after the final-block load
and after the last `PERM 12`; for every value of the parameters. -/
def Obligations.DifferentTailsGiveDifferentStates : Prop :=
  ∀ (c : Config) (S : Words) (t u : Nat) (v : Vector Byte t) (w : Vector Byte u), t ≤ 31 → u ≤ 31 → v.toList ≠ w.toList →
    domainSeparate (absorbBlock S (padBlock t v)) ≠ domainSeparate (absorbBlock S (padBlock u w)) ∧
    permute c 12 (domainSeparate (absorbBlock S (padBlock t v))) ≠ permute c 12 (domainSeparate (absorbBlock S (padBlock u w)))

/-- R138: from every state of the invariant, a busy core takes a step, each step leaves one fewer to take, and taking
them all reaches `DONE`. -/
def Obligations.BusyCoreReachesDone : Prop :=
  ∀ s : State, Inv s → s.phase.busy = true →
    (∃ t : State, coreStep s = .next t ∧ stepsLeft t + 1 = stepsLeft s) ∧
    ∃ t : State, coreRun (stepsLeft s) s = .next t ∧ t.phase = .done

/-! ### Invariants and whole-machine rules -/

/-- R31, R128: the values after reset, and that both invariants hold there. The contents of `KEY` and `MSG` after reset
are the model's choice (log entry 6) and are not stated. -/
def Obligations.ResetValuesAndInvariants : Prop :=
  State.reset.x = ⟨0, 0, 0, 0, 0⟩ ∧ State.reset.phase = .idle ∧ State.reset.blk = 0 ∧ State.reset.ridx = 12 ∧
  State.reset.len = 0 ∧ (∀ k : Fin 32, State.reset.buf[k] = 0) ∧ (∀ k : Fin 16, State.reset.tag[k] = 0) ∧
  State.reset.err = .none ∧ State.reset.keyLen = 0 ∧ State.reset.tagCap = 0 ∧ State.reset.msgLen = 0 ∧
  Inv State.reset ∧ HostOnlyInv State.reset

/-- Every step keeps the invariant: `blk` within `floor(LEN/32)`, the engine idle at tag extraction, `BUF` and `TAG` zero
outside their phases, both byte spaces canonical, `KEY` within its 16 bytes (R17 to R20, R22, R33, R35). -/
def Obligations.StepKeepsTheInvariant : Prop :=
  ∀ s t : State, Inv s → step s = .next t → Inv t

/-- With a host alone outside, every step keeps this too: whenever the core is not busy, the engine is idle and `x` and
`BUF` are zero, so nothing of a key or message is left in the block (R97, R128, R134). -/
def Obligations.NothingIsLeftWhenNotBusy : Prop :=
  ∀ s t : State, HostOnlyInv s → step s = .next t → HostOnlyInv t

/-- R128: the global reset, at any time and from any phase, gives every piece of the block's state its reset value and
leaves `KEY` and `MSG` and the parameter values as they are. -/
def Obligations.GlobalResetFromAnyState : Prop :=
  ∀ s : State, ∃ t : State, hostStep .reset s = .next t ∧
    t.x = State.reset.x ∧ t.buf = State.reset.buf ∧ t.tag = State.reset.tag ∧ t.blk = 0 ∧ t.len = 0 ∧ t.err = .none ∧
    t.keyLen = 0 ∧ t.tagCap = 0 ∧ t.msgLen = 0 ∧ t.phase = .idle ∧ t.ridx = 12 ∧ t.cfg = s.cfg ∧ SameBytes s t

/-- R26: the fields of `STATUS`. -/
def Obligations.StatusShowsItsFields : Prop :=
  ∀ s : State,
    ((status s).extractLsb' 0 3).toNat =
      (match s.phase with | .idle => 0 | .init => 1 | .absorbFull => 2 | .absorbFinal => 3 | .squeeze => 4 | .done => 5) ∧
    ((status s)[3] = true ↔ s.phase = .init ∨ s.phase = .absorbFull ∨ s.phase = .absorbFinal ∨ s.phase = .squeeze) ∧
    ((status s)[4] = true ↔ s.phase = .done) ∧
    ((status s).extractLsb' 5 2).toNat =
      (match s.err with | .none => 0 | .invalidKeyLength => 1 | .bufferTooSmall => 2 | .illegalCommand => 3) ∧
    (status s)[7] = false ∧
    hostStep .rdStatus s = .next (s.setReads (.status (status s) :: s.reads)) ∧
    ∀ v : BitVec 8, hostStep (.wrStatus v) s = .next s

/-- R14, R42: a read of the host depends on nothing but `STATUS`, `TAG` and the parameter registers: two states that
differ in `x`, `BUF`, `ridx`, `blk`, `LEN`, `KEY` or `MSG` read the same, and a read changes nothing. -/
def Obligations.HostReadsSeeNoPrivateState : Prop :=
  ∀ (m : HostMove) (s t : State), m.isRead = true → SameView s t → ∃ r : HostRead,
    hostStep m s = .next (s.setReads (r :: s.reads)) ∧ hostStep m t = .next (t.setReads (r :: t.reads))

/-- R14, R26, R35, R42: no host move but a command and the global reset writes `x`, `phase`, `blk`, `ridx`, `LEN`, `BUF`,
`TAG` or `ERR`. -/
def Obligations.HostMovesWriteNoPrivateState : Prop :=
  ∀ (m : HostMove) (s t : State), (∀ v : BitVec 8, m ≠ .wrCmd v) → m ≠ .reset → hostStep m s = .next t →
    t.x = s.x ∧ t.phase = s.phase ∧ t.blk = s.blk ∧ t.ridx = s.ridx ∧ t.len = s.len ∧ t.buf = s.buf ∧ t.tag = s.tag ∧
    t.err = s.err ∧ t.cfg = s.cfg

/-- R25, R27, R35: what the host's registers read as, and what writes to them leave: `CMD` reads `0x00`; the parameter
registers read back what was written, and a write to one changes nothing else; `TAG` is a read-only view. -/
def Obligations.HostRegistersReadAndWrite : Prop :=
  ∀ s : State,
    hostStep .rdCmd s = .next (s.setReads (.cmd 0x00 :: s.reads)) ∧
    hostStep .rdKeyLen s = .next (s.setReads (.keyLen s.keyLen :: s.reads)) ∧
    hostStep .rdTagCap s = .next (s.setReads (.tagCap s.tagCap :: s.reads)) ∧
    hostStep .rdMsgLen s = .next (s.setReads (.msgLen s.msgLen :: s.reads)) ∧
    (∀ v : BitVec 8, hostStep (.wrKeyLen v) s = .next (s.setKeyLen v) ∧ hostStep (.wrTagCap v) s = .next (s.setTagCap v)) ∧
    (∀ n : Nat, hostStep (.wrMsgLen n) s = .next (s.setMsgLen n)) ∧
    (∀ i : Fin 16, hostStep (.rdTag i) s = .next (s.setReads (.tag i s.tag[i] :: s.reads))) ∧
    (∀ (i : Fin 16) (b : Byte), hostStep (.wrTag i b) s = .next s)

/-- R33, R34, R36: a host write of one byte to `KEY` or `MSG` is what that index then reads as, and every other byte of
both spaces reads as before; for spaces in canonical form. R45: while busy a write to `MSG` is a move the model gives the
host no meaning for, and it is refused by name (log entry 11). -/
def Obligations.HostByteWriteStoresThatByte : Prop :=
  ∀ (s : State) (b : Byte), Inv s →
    (∀ i : Fin 16, ∃ t : State, hostStep (.wrKey i b) s = .next t ∧ t.byteAt .key i.val = b ∧
      (∀ a : Nat, a ≠ i.val → t.byteAt .key a = s.byteAt .key a) ∧ (∀ a : Nat, t.byteAt .msg a = s.byteAt .msg a) ∧
      t = s.setKey t.key) ∧
    (∀ i : Nat, s.phase = .idle ∨ s.phase = .done → ∃ t : State, hostStep (.wrMsg i b) s = .next t ∧
      t.byteAt .msg i = b ∧ (∀ a : Nat, a ≠ i → t.byteAt .msg a = s.byteAt .msg a) ∧
      (∀ a : Nat, t.byteAt .key a = s.byteAt .key a) ∧ t = s.setMsg t.msg) ∧
    (∀ i : Nat, s.phase.busy = true → hostStep (.wrMsg i b) s = .refused .msgWriteWhileBusy)

/-- R27, R28, R34, R45: no core step changes a parameter register, `ERR`, `LEN`, `KEY` or `MSG`, and none depends on the
parameter registers, `ERR` or `KEY`, so host writes to those while busy are harmless. -/
def Obligations.CoreStepIgnoresWhatTheHostMayWriteWhileBusy : Prop :=
  ∀ (s : State) (k : Memory) (a b : BitVec 8) (n : Nat) (e : ErrCode),
    (∀ t : State, coreStep s = .next t → t.keyLen = s.keyLen ∧ t.tagCap = s.tagCap ∧ t.msgLen = s.msgLen ∧ t.err = s.err ∧
      t.len = s.len ∧ t.key = s.key ∧ t.msg = s.msg ∧ t.cfg = s.cfg) ∧
    coreStep (((((s.setKey k).setKeyLen a).setTagCap b).setMsgLen n).setErr e) =
      onNext (fun t => ((((t.setKey k).setKeyLen a).setTagCap b).setMsgLen n).setErr e) (coreStep s)

/-- R99: the transition graph: a step changes `phase` only along its edges. -/
def Obligations.PhaseChangesFollowTheGraph : Prop :=
  ∀ s t : State, step s = .next t → t.phase = s.phase ∨
    (s.phase = .idle ∧ t.phase = .init) ∨ (s.phase = .done ∧ t.phase = .init) ∨
    (s.phase = .init ∧ s.ridx = 12 ∧ t.phase = .absorbFull) ∨
    (s.phase = .absorbFull ∧ s.ridx = 12 ∧ ¬ s.blk < s.len / 32 ∧ t.phase = .absorbFinal) ∨
    (s.phase = .absorbFinal ∧ s.ridx = 12 ∧ t.phase = .squeeze) ∨
    (s.phase = .squeeze ∧ t.phase = .done) ∨
    (t.phase = .idle ∧ ∃ (b : Bool) (rest : List Input), s.inputs = .host b .reset :: rest)

/-- R81, R137: the sequence of core steps depends on the length alone: two states with the same `phase`, `blk`, `ridx` and
`LEN`, whatever else they hold, both take a step, to states that again agree on those four. -/
def Obligations.ControlDependsOnNoDataValue : Prop :=
  ∀ s t : State, SameControl s t → ∃ s' t' : State,
    coreStep s = .next s' ∧ coreStep t = .next t' ∧ SameControl s' t'

/-- R16, R103: with a host alone outside, what a step can do to the capacity word: nothing; zero (INIT load, discard,
reset); a round; or, in the one step that enters `ABSORB_FINAL`, the flip of bit 0. -/
def Obligations.CapacityWordIsTouchedOnlyAsStated : Prop :=
  ∀ s t : State, s.inputs.all Input.fromHost = true → step s = .next t →
    t.x.x4 = s.x.x4 ∨ (t.x.x4 = 0 ∧ (t.phase = .init ∨ t.phase = .done ∨ t.phase = .idle)) ∨
    (∃ h : s.ridx.val < 12, t.x = roundWords s.cfg ⟨s.ridx.val, h⟩ s.x) ∨
    (s.phase = .absorbFull ∧ t.phase = .absorbFinal ∧ t.x.x4 = s.x.x4 ^^^ 1)

/-- R23, R35, R103: `TAG` changes only in the step of `SQUEEZE` that enters `DONE`, where it takes words 0 and 1 after the
last permutation, or to zero at an accepted command or reset. -/
def Obligations.TagIsWrittenOnlyBySqueezeOrCleared : Prop :=
  ∀ s t : State, step s = .next t → t.tag ≠ s.tag →
    (s.phase = .squeeze ∧ t.phase = .done ∧ t.tag = tagBytes s.x.x0 s.x.x1) ∨
    (t.tag = Vector.replicate 16 0 ∧ (t.phase = .init ∨ t.phase = .idle))

/-- R21, R28, R121: `ERR` changes only at a write to `CMD` or reset, and `LEN` only at an accepted command, which latches
`MSG_LEN`, or at reset. -/
def Obligations.ErrAndLenChangeOnlyAtCommandsAndReset : Prop :=
  ∀ s t : State, step s = .next t →
    (t.err ≠ s.err → ∃ (b : Bool) (m : HostMove) (rest : List Input), s.inputs = .host b m :: rest ∧
      ((∃ v : BitVec 8, m = .wrCmd v) ∨ m = .reset)) ∧
    (t.len ≠ s.len → (t.len = s.msgLen ∧ t.phase = .init ∧ s.phase.busy = false) ∨ (t.len = 0 ∧ t.phase = .idle))

/-- R9, R24, R31: the parameter values are never changed, by no step of any kind, and no host read depends on them. -/
def Obligations.ParametersAreNeverChanged : Prop :=
  (∀ s t : State, step s = .next t → t.cfg = s.cfg) ∧
  ∀ (m : HostMove) (s : State) (c : Config), m.isRead = true →
    hostStep m (s.setCfg c) = onNext (fun t => t.setCfg c) (hostStep m s)

/-- R46, R124: instances share no state: a step of one leaves every other as it is, and steps of two different
instances give the same end state in either order; there is always at least one (R9), and as many as before. That
instances interleave step by step is the model's choice (log entry 14). -/
def Obligations.InstancesAreIndependent : Prop :=
  ∀ (ss tt : Instances) (j k : Nat), j ≠ k → ss.stepAt k = .next tt →
    tt.get? j = ss.get? j ∧ tt.count = ss.count ∧ 1 ≤ ss.count ∧
    ∀ uu : Instances, tt.stepAt j = .next uu →
      ∃ vv : Instances, ss.stepAt j = .next vv ∧ vv.stepAt k = .next uu
end

