-- ==== Sys2Proof/Laws/Instances.lean ====
section
/-! SUPPORT. Reading and replacing the state of one instance. -/

namespace Sys2Proof.Machine.Instances

variable (ss : Instances)

theorem count_pos : 1 ≤ ss.count := Nat.succ_le_succ (Nat.zero_le _)

@[simp] theorem count_set (k : Nat) (t : State) : (ss.set k t).count = ss.count := by
  cases k <;> simp [set, count]

/-- Replacing one instance leaves every other. -/
theorem get?_set_ne {j k : Nat} (h : j ≠ k) (t : State) : (ss.set k t).get? j = ss.get? j := by
  cases j <;> cases k <;> simp_all [set, get?, List.getElem?_set_ne, Ne.symm]

/-- Replacements of two instances commute. -/
theorem set_comm {j k : Nat} (h : j ≠ k) (t u : State) : (ss.set k t).set j u = (ss.set j u).set k t := by
  cases j <;> cases k <;> simp_all [set, List.set_comm, Ne.symm]

/-- What a step of one instance can do: nothing where there is none, else that instance's step put in its place. -/
theorem stepAt_cases (k : Nat) :
    (ss.get? k = none ∧ ss.stepAt k = .next ss) ∨ ∃ s, ss.get? k = some s ∧ ss.stepAt k = ss.put k (step s) := by
  cases h : ss.get? k <;> simp [stepAt, h]

end Sys2Proof.Machine.Instances
end

