-- ==== Sys2Proof/Laws/Memory.lean ====
section
/-! SUPPORT. The byte spaces: a read after a write, and that a write keeps the canonical form and a bound on the
indices. -/

namespace Sys2Proof.Machine.Memory

@[simp] theorem read_nil (a : Nat) : Memory.read [] a = unlistedByte := rfl

@[simp] theorem read_cons (k : Nat) (v : Byte) (m : Memory) (a : Nat) :
    Memory.read ((k, v) :: m) a = if a = k then v else m.read a := rfl

@[simp] theorem wfFrom_nil (lo : Nat) : Memory.wfFrom lo [] = true := rfl

theorem wfFrom_cons (lo k : Nat) (v : Byte) (m : Memory) :
    Memory.wfFrom lo ((k, v) :: m) = true ↔ lo ≤ k ∧ v ≠ unlistedByte ∧ Memory.wfFrom (k + 1) m = true := by
  simp [Memory.wfFrom, and_assoc]

/-- A lower bound may be lowered. -/
theorem wfFrom_mono {lo lo' : Nat} {m : Memory} (h : lo' ≤ lo) (hm : m.wfFrom lo = true) : m.wfFrom lo' = true := by
  cases m with
  | nil => rfl
  | cons c m =>
    obtain ⟨k, v⟩ := c
    rw [wfFrom_cons] at hm ⊢
    exact ⟨h.trans hm.1, hm.2⟩

/-- Below its lower bound a canonical space lists nothing. -/
theorem read_below {lo a : Nat} {m : Memory} (hm : m.wfFrom lo = true) (h : a < lo) : m.read a = unlistedByte := by
  induction m generalizing lo with
  | nil => rfl
  | cons c m ih =>
    obtain ⟨k, v⟩ := c
    rw [wfFrom_cons] at hm
    rw [read_cons, if_neg (by omega)]
    exact ih hm.2.2 (by omega)

theorem read_consCell_same {a : Nat} {b : Byte} {m : Memory} (hm : m.wfFrom (a + 1) = true) :
    (Memory.consCell a b m).read a = b := by
  unfold Memory.consCell
  split
  · next h => rw [read_below hm (Nat.lt_succ_self a), h]
  · simp

theorem read_consCell_other {a a' : Nat} {b : Byte} {m : Memory} (h : a' ≠ a) :
    (Memory.consCell a b m).read a' = m.read a' := by
  unfold Memory.consCell
  split <;> simp [h]

theorem wfFrom_consCell {lo a : Nat} {b : Byte} {m : Memory} (h : lo ≤ a) (hm : m.wfFrom (a + 1) = true) :
    (Memory.consCell a b m).wfFrom lo = true := by
  unfold Memory.consCell
  split
  · exact wfFrom_mono (by omega) hm
  · next hb => exact (wfFrom_cons _ _ _ _).2 ⟨h, hb, hm⟩

/-- A write keeps the canonical form. -/
theorem wfFrom_write {lo a : Nat} {b : Byte} {m : Memory} (hm : m.wfFrom lo = true) (h : lo ≤ a) :
    (m.write a b).wfFrom lo = true := by
  induction m generalizing lo with
  | nil => exact wfFrom_consCell h (wfFrom_nil _)
  | cons c m ih =>
    obtain ⟨k, v⟩ := c
    have hm' := (wfFrom_cons _ _ _ _).1 hm
    unfold Memory.write
    split
    · exact wfFrom_consCell h ((wfFrom_cons _ _ _ _).2 ⟨by omega, hm'.2⟩)
    · split
      · next he => subst he; exact wfFrom_consCell h hm'.2.2
      · exact (wfFrom_cons _ _ _ _).2 ⟨hm'.1, hm'.2.1, ih hm'.2.2 (by omega)⟩

theorem wf_write {m : Memory} (a : Nat) (b : Byte) (hm : m.wf = true) : (m.write a b).wf = true :=
  wfFrom_write hm (Nat.zero_le a)

@[simp] theorem wf_nil : Memory.wf [] = true := rfl

/-- A read of the byte just written gives it. -/
theorem read_write_same {lo : Nat} {m : Memory} (a : Nat) (b : Byte) (hm : m.wfFrom lo = true) (h : lo ≤ a) :
    (m.write a b).read a = b := by
  induction m generalizing lo with
  | nil => exact read_consCell_same (wfFrom_nil _)
  | cons c m ih =>
    obtain ⟨k, v⟩ := c
    have hm' := (wfFrom_cons _ _ _ _).1 hm
    unfold Memory.write
    split
    · exact read_consCell_same ((wfFrom_cons _ _ _ _).2 ⟨by omega, hm'.2⟩)
    · split
      · next he => subst he; exact read_consCell_same hm'.2.2
      · next hne => rw [read_cons, if_neg hne]; exact ih hm'.2.2 (by omega)

/-- A write leaves every other byte as it is. -/
theorem read_write_other {m : Memory} {a a' : Nat} (b : Byte) (h : a' ≠ a) : (m.write a b).read a' = m.read a' := by
  induction m with
  | nil => exact read_consCell_other h
  | cons c m ih =>
    obtain ⟨k, v⟩ := c
    unfold Memory.write
    split
    · exact read_consCell_other h
    · split
      · next he => subst he; rw [read_consCell_other h, read_cons, if_neg h]
      · rw [read_cons, read_cons, ih]

theorem below_consCell {n a : Nat} {b : Byte} {m : Memory} (h : a < n) (hm : m.below n = true) :
    (Memory.consCell a b m).below n = true := by
  unfold Memory.consCell
  split
  · exact hm
  · simpa [Memory.below, h] using hm

/-- A write below a bound keeps the bound. -/
theorem below_write {n a : Nat} (b : Byte) {m : Memory} (h : a < n) (hm : m.below n = true) :
    (m.write a b).below n = true := by
  induction m with
  | nil => exact below_consCell h hm
  | cons c m ih =>
    obtain ⟨k, v⟩ := c
    have hm' : k < n ∧ Memory.below n m = true := by simpa [Memory.below] using hm
    unfold Memory.write
    split
    · exact below_consCell h hm
    · split
      · exact below_consCell h hm'.2
      · simpa [Memory.below, hm'.1] using ih hm'.2

end Sys2Proof.Machine.Memory

namespace Sys2Proof.Machine

/-- Byte `k` of a read is the byte at `addr + k` (R36). -/
@[simp] theorem memRead_getElem (m : Memory) (addr n k : Nat) (h : k < n) : (memRead m addr n)[k] = m.read (addr + k) := by
  simp [memRead]

/-- A read depends on the bytes it reads alone. -/
theorem memRead_congr {m m' : Memory} {addr n : Nat} (h : ∀ k, k < n → m.read (addr + k) = m'.read (addr + k)) :
    memRead m addr n = memRead m' addr n := by
  ext k hk
  simp [h k hk]

end Sys2Proof.Machine
end

