-- ==== Sys2Proof/Laws/State.lean ====
section
/-! SUPPORT. Every field after every update, so that no later proof unfolds a record update. -/

namespace Sys2Proof.Machine.State

variable (s : State)

@[simp] theorem setX_x (v : Words) : (s.setX v).x = v := rfl
@[simp] theorem setX_phase (v : Words) : (s.setX v).phase = s.phase := rfl
@[simp] theorem setX_blk (v : Words) : (s.setX v).blk = s.blk := rfl
@[simp] theorem setX_ridx (v : Words) : (s.setX v).ridx = s.ridx := rfl
@[simp] theorem setX_len (v : Words) : (s.setX v).len = s.len := rfl
@[simp] theorem setX_buf (v : Words) : (s.setX v).buf = s.buf := rfl
@[simp] theorem setX_tag (v : Words) : (s.setX v).tag = s.tag := rfl
@[simp] theorem setX_err (v : Words) : (s.setX v).err = s.err := rfl
@[simp] theorem setX_keyLen (v : Words) : (s.setX v).keyLen = s.keyLen := rfl
@[simp] theorem setX_tagCap (v : Words) : (s.setX v).tagCap = s.tagCap := rfl
@[simp] theorem setX_msgLen (v : Words) : (s.setX v).msgLen = s.msgLen := rfl
@[simp] theorem setX_key (v : Words) : (s.setX v).key = s.key := rfl
@[simp] theorem setX_msg (v : Words) : (s.setX v).msg = s.msg := rfl
@[simp] theorem setX_cfg (v : Words) : (s.setX v).cfg = s.cfg := rfl
@[simp] theorem setX_codec (v : Words) : (s.setX v).codec = s.codec := rfl
@[simp] theorem setX_inputs (v : Words) : (s.setX v).inputs = s.inputs := rfl
@[simp] theorem setX_reads (v : Words) : (s.setX v).reads = s.reads := rfl
@[simp] theorem setX_events (v : Words) : (s.setX v).events = s.events := rfl

@[simp] theorem setPhase_x (v : Phase) : (s.setPhase v).x = s.x := rfl
@[simp] theorem setPhase_phase (v : Phase) : (s.setPhase v).phase = v := rfl
@[simp] theorem setPhase_blk (v : Phase) : (s.setPhase v).blk = s.blk := rfl
@[simp] theorem setPhase_ridx (v : Phase) : (s.setPhase v).ridx = s.ridx := rfl
@[simp] theorem setPhase_len (v : Phase) : (s.setPhase v).len = s.len := rfl
@[simp] theorem setPhase_buf (v : Phase) : (s.setPhase v).buf = s.buf := rfl
@[simp] theorem setPhase_tag (v : Phase) : (s.setPhase v).tag = s.tag := rfl
@[simp] theorem setPhase_err (v : Phase) : (s.setPhase v).err = s.err := rfl
@[simp] theorem setPhase_keyLen (v : Phase) : (s.setPhase v).keyLen = s.keyLen := rfl
@[simp] theorem setPhase_tagCap (v : Phase) : (s.setPhase v).tagCap = s.tagCap := rfl
@[simp] theorem setPhase_msgLen (v : Phase) : (s.setPhase v).msgLen = s.msgLen := rfl
@[simp] theorem setPhase_key (v : Phase) : (s.setPhase v).key = s.key := rfl
@[simp] theorem setPhase_msg (v : Phase) : (s.setPhase v).msg = s.msg := rfl
@[simp] theorem setPhase_cfg (v : Phase) : (s.setPhase v).cfg = s.cfg := rfl
@[simp] theorem setPhase_codec (v : Phase) : (s.setPhase v).codec = s.codec := rfl
@[simp] theorem setPhase_inputs (v : Phase) : (s.setPhase v).inputs = s.inputs := rfl
@[simp] theorem setPhase_reads (v : Phase) : (s.setPhase v).reads = s.reads := rfl
@[simp] theorem setPhase_events (v : Phase) : (s.setPhase v).events = s.events := rfl

@[simp] theorem setBlk_x (v : Nat) : (s.setBlk v).x = s.x := rfl
@[simp] theorem setBlk_phase (v : Nat) : (s.setBlk v).phase = s.phase := rfl
@[simp] theorem setBlk_blk (v : Nat) : (s.setBlk v).blk = v := rfl
@[simp] theorem setBlk_ridx (v : Nat) : (s.setBlk v).ridx = s.ridx := rfl
@[simp] theorem setBlk_len (v : Nat) : (s.setBlk v).len = s.len := rfl
@[simp] theorem setBlk_buf (v : Nat) : (s.setBlk v).buf = s.buf := rfl
@[simp] theorem setBlk_tag (v : Nat) : (s.setBlk v).tag = s.tag := rfl
@[simp] theorem setBlk_err (v : Nat) : (s.setBlk v).err = s.err := rfl
@[simp] theorem setBlk_keyLen (v : Nat) : (s.setBlk v).keyLen = s.keyLen := rfl
@[simp] theorem setBlk_tagCap (v : Nat) : (s.setBlk v).tagCap = s.tagCap := rfl
@[simp] theorem setBlk_msgLen (v : Nat) : (s.setBlk v).msgLen = s.msgLen := rfl
@[simp] theorem setBlk_key (v : Nat) : (s.setBlk v).key = s.key := rfl
@[simp] theorem setBlk_msg (v : Nat) : (s.setBlk v).msg = s.msg := rfl
@[simp] theorem setBlk_cfg (v : Nat) : (s.setBlk v).cfg = s.cfg := rfl
@[simp] theorem setBlk_codec (v : Nat) : (s.setBlk v).codec = s.codec := rfl
@[simp] theorem setBlk_inputs (v : Nat) : (s.setBlk v).inputs = s.inputs := rfl
@[simp] theorem setBlk_reads (v : Nat) : (s.setBlk v).reads = s.reads := rfl
@[simp] theorem setBlk_events (v : Nat) : (s.setBlk v).events = s.events := rfl

@[simp] theorem setRidx_x (v : Fin 13) : (s.setRidx v).x = s.x := rfl
@[simp] theorem setRidx_phase (v : Fin 13) : (s.setRidx v).phase = s.phase := rfl
@[simp] theorem setRidx_blk (v : Fin 13) : (s.setRidx v).blk = s.blk := rfl
@[simp] theorem setRidx_ridx (v : Fin 13) : (s.setRidx v).ridx = v := rfl
@[simp] theorem setRidx_len (v : Fin 13) : (s.setRidx v).len = s.len := rfl
@[simp] theorem setRidx_buf (v : Fin 13) : (s.setRidx v).buf = s.buf := rfl
@[simp] theorem setRidx_tag (v : Fin 13) : (s.setRidx v).tag = s.tag := rfl
@[simp] theorem setRidx_err (v : Fin 13) : (s.setRidx v).err = s.err := rfl
@[simp] theorem setRidx_keyLen (v : Fin 13) : (s.setRidx v).keyLen = s.keyLen := rfl
@[simp] theorem setRidx_tagCap (v : Fin 13) : (s.setRidx v).tagCap = s.tagCap := rfl
@[simp] theorem setRidx_msgLen (v : Fin 13) : (s.setRidx v).msgLen = s.msgLen := rfl
@[simp] theorem setRidx_key (v : Fin 13) : (s.setRidx v).key = s.key := rfl
@[simp] theorem setRidx_msg (v : Fin 13) : (s.setRidx v).msg = s.msg := rfl
@[simp] theorem setRidx_cfg (v : Fin 13) : (s.setRidx v).cfg = s.cfg := rfl
@[simp] theorem setRidx_codec (v : Fin 13) : (s.setRidx v).codec = s.codec := rfl
@[simp] theorem setRidx_inputs (v : Fin 13) : (s.setRidx v).inputs = s.inputs := rfl
@[simp] theorem setRidx_reads (v : Fin 13) : (s.setRidx v).reads = s.reads := rfl
@[simp] theorem setRidx_events (v : Fin 13) : (s.setRidx v).events = s.events := rfl

@[simp] theorem setLen_x (v : Nat) : (s.setLen v).x = s.x := rfl
@[simp] theorem setLen_phase (v : Nat) : (s.setLen v).phase = s.phase := rfl
@[simp] theorem setLen_blk (v : Nat) : (s.setLen v).blk = s.blk := rfl
@[simp] theorem setLen_ridx (v : Nat) : (s.setLen v).ridx = s.ridx := rfl
@[simp] theorem setLen_len (v : Nat) : (s.setLen v).len = v := rfl
@[simp] theorem setLen_buf (v : Nat) : (s.setLen v).buf = s.buf := rfl
@[simp] theorem setLen_tag (v : Nat) : (s.setLen v).tag = s.tag := rfl
@[simp] theorem setLen_err (v : Nat) : (s.setLen v).err = s.err := rfl
@[simp] theorem setLen_keyLen (v : Nat) : (s.setLen v).keyLen = s.keyLen := rfl
@[simp] theorem setLen_tagCap (v : Nat) : (s.setLen v).tagCap = s.tagCap := rfl
@[simp] theorem setLen_msgLen (v : Nat) : (s.setLen v).msgLen = s.msgLen := rfl
@[simp] theorem setLen_key (v : Nat) : (s.setLen v).key = s.key := rfl
@[simp] theorem setLen_msg (v : Nat) : (s.setLen v).msg = s.msg := rfl
@[simp] theorem setLen_cfg (v : Nat) : (s.setLen v).cfg = s.cfg := rfl
@[simp] theorem setLen_codec (v : Nat) : (s.setLen v).codec = s.codec := rfl
@[simp] theorem setLen_inputs (v : Nat) : (s.setLen v).inputs = s.inputs := rfl
@[simp] theorem setLen_reads (v : Nat) : (s.setLen v).reads = s.reads := rfl
@[simp] theorem setLen_events (v : Nat) : (s.setLen v).events = s.events := rfl

@[simp] theorem setBuf_x (v : Vector Byte 32) : (s.setBuf v).x = s.x := rfl
@[simp] theorem setBuf_phase (v : Vector Byte 32) : (s.setBuf v).phase = s.phase := rfl
@[simp] theorem setBuf_blk (v : Vector Byte 32) : (s.setBuf v).blk = s.blk := rfl
@[simp] theorem setBuf_ridx (v : Vector Byte 32) : (s.setBuf v).ridx = s.ridx := rfl
@[simp] theorem setBuf_len (v : Vector Byte 32) : (s.setBuf v).len = s.len := rfl
@[simp] theorem setBuf_buf (v : Vector Byte 32) : (s.setBuf v).buf = v := rfl
@[simp] theorem setBuf_tag (v : Vector Byte 32) : (s.setBuf v).tag = s.tag := rfl
@[simp] theorem setBuf_err (v : Vector Byte 32) : (s.setBuf v).err = s.err := rfl
@[simp] theorem setBuf_keyLen (v : Vector Byte 32) : (s.setBuf v).keyLen = s.keyLen := rfl
@[simp] theorem setBuf_tagCap (v : Vector Byte 32) : (s.setBuf v).tagCap = s.tagCap := rfl
@[simp] theorem setBuf_msgLen (v : Vector Byte 32) : (s.setBuf v).msgLen = s.msgLen := rfl
@[simp] theorem setBuf_key (v : Vector Byte 32) : (s.setBuf v).key = s.key := rfl
@[simp] theorem setBuf_msg (v : Vector Byte 32) : (s.setBuf v).msg = s.msg := rfl
@[simp] theorem setBuf_cfg (v : Vector Byte 32) : (s.setBuf v).cfg = s.cfg := rfl
@[simp] theorem setBuf_codec (v : Vector Byte 32) : (s.setBuf v).codec = s.codec := rfl
@[simp] theorem setBuf_inputs (v : Vector Byte 32) : (s.setBuf v).inputs = s.inputs := rfl
@[simp] theorem setBuf_reads (v : Vector Byte 32) : (s.setBuf v).reads = s.reads := rfl
@[simp] theorem setBuf_events (v : Vector Byte 32) : (s.setBuf v).events = s.events := rfl

@[simp] theorem setTag_x (v : Vector Byte 16) : (s.setTag v).x = s.x := rfl
@[simp] theorem setTag_phase (v : Vector Byte 16) : (s.setTag v).phase = s.phase := rfl
@[simp] theorem setTag_blk (v : Vector Byte 16) : (s.setTag v).blk = s.blk := rfl
@[simp] theorem setTag_ridx (v : Vector Byte 16) : (s.setTag v).ridx = s.ridx := rfl
@[simp] theorem setTag_len (v : Vector Byte 16) : (s.setTag v).len = s.len := rfl
@[simp] theorem setTag_buf (v : Vector Byte 16) : (s.setTag v).buf = s.buf := rfl
@[simp] theorem setTag_tag (v : Vector Byte 16) : (s.setTag v).tag = v := rfl
@[simp] theorem setTag_err (v : Vector Byte 16) : (s.setTag v).err = s.err := rfl
@[simp] theorem setTag_keyLen (v : Vector Byte 16) : (s.setTag v).keyLen = s.keyLen := rfl
@[simp] theorem setTag_tagCap (v : Vector Byte 16) : (s.setTag v).tagCap = s.tagCap := rfl
@[simp] theorem setTag_msgLen (v : Vector Byte 16) : (s.setTag v).msgLen = s.msgLen := rfl
@[simp] theorem setTag_key (v : Vector Byte 16) : (s.setTag v).key = s.key := rfl
@[simp] theorem setTag_msg (v : Vector Byte 16) : (s.setTag v).msg = s.msg := rfl
@[simp] theorem setTag_cfg (v : Vector Byte 16) : (s.setTag v).cfg = s.cfg := rfl
@[simp] theorem setTag_codec (v : Vector Byte 16) : (s.setTag v).codec = s.codec := rfl
@[simp] theorem setTag_inputs (v : Vector Byte 16) : (s.setTag v).inputs = s.inputs := rfl
@[simp] theorem setTag_reads (v : Vector Byte 16) : (s.setTag v).reads = s.reads := rfl
@[simp] theorem setTag_events (v : Vector Byte 16) : (s.setTag v).events = s.events := rfl

@[simp] theorem setErr_x (v : ErrCode) : (s.setErr v).x = s.x := rfl
@[simp] theorem setErr_phase (v : ErrCode) : (s.setErr v).phase = s.phase := rfl
@[simp] theorem setErr_blk (v : ErrCode) : (s.setErr v).blk = s.blk := rfl
@[simp] theorem setErr_ridx (v : ErrCode) : (s.setErr v).ridx = s.ridx := rfl
@[simp] theorem setErr_len (v : ErrCode) : (s.setErr v).len = s.len := rfl
@[simp] theorem setErr_buf (v : ErrCode) : (s.setErr v).buf = s.buf := rfl
@[simp] theorem setErr_tag (v : ErrCode) : (s.setErr v).tag = s.tag := rfl
@[simp] theorem setErr_err (v : ErrCode) : (s.setErr v).err = v := rfl
@[simp] theorem setErr_keyLen (v : ErrCode) : (s.setErr v).keyLen = s.keyLen := rfl
@[simp] theorem setErr_tagCap (v : ErrCode) : (s.setErr v).tagCap = s.tagCap := rfl
@[simp] theorem setErr_msgLen (v : ErrCode) : (s.setErr v).msgLen = s.msgLen := rfl
@[simp] theorem setErr_key (v : ErrCode) : (s.setErr v).key = s.key := rfl
@[simp] theorem setErr_msg (v : ErrCode) : (s.setErr v).msg = s.msg := rfl
@[simp] theorem setErr_cfg (v : ErrCode) : (s.setErr v).cfg = s.cfg := rfl
@[simp] theorem setErr_codec (v : ErrCode) : (s.setErr v).codec = s.codec := rfl
@[simp] theorem setErr_inputs (v : ErrCode) : (s.setErr v).inputs = s.inputs := rfl
@[simp] theorem setErr_reads (v : ErrCode) : (s.setErr v).reads = s.reads := rfl
@[simp] theorem setErr_events (v : ErrCode) : (s.setErr v).events = s.events := rfl

@[simp] theorem setKeyLen_x (v : BitVec 8) : (s.setKeyLen v).x = s.x := rfl
@[simp] theorem setKeyLen_phase (v : BitVec 8) : (s.setKeyLen v).phase = s.phase := rfl
@[simp] theorem setKeyLen_blk (v : BitVec 8) : (s.setKeyLen v).blk = s.blk := rfl
@[simp] theorem setKeyLen_ridx (v : BitVec 8) : (s.setKeyLen v).ridx = s.ridx := rfl
@[simp] theorem setKeyLen_len (v : BitVec 8) : (s.setKeyLen v).len = s.len := rfl
@[simp] theorem setKeyLen_buf (v : BitVec 8) : (s.setKeyLen v).buf = s.buf := rfl
@[simp] theorem setKeyLen_tag (v : BitVec 8) : (s.setKeyLen v).tag = s.tag := rfl
@[simp] theorem setKeyLen_err (v : BitVec 8) : (s.setKeyLen v).err = s.err := rfl
@[simp] theorem setKeyLen_keyLen (v : BitVec 8) : (s.setKeyLen v).keyLen = v := rfl
@[simp] theorem setKeyLen_tagCap (v : BitVec 8) : (s.setKeyLen v).tagCap = s.tagCap := rfl
@[simp] theorem setKeyLen_msgLen (v : BitVec 8) : (s.setKeyLen v).msgLen = s.msgLen := rfl
@[simp] theorem setKeyLen_key (v : BitVec 8) : (s.setKeyLen v).key = s.key := rfl
@[simp] theorem setKeyLen_msg (v : BitVec 8) : (s.setKeyLen v).msg = s.msg := rfl
@[simp] theorem setKeyLen_cfg (v : BitVec 8) : (s.setKeyLen v).cfg = s.cfg := rfl
@[simp] theorem setKeyLen_codec (v : BitVec 8) : (s.setKeyLen v).codec = s.codec := rfl
@[simp] theorem setKeyLen_inputs (v : BitVec 8) : (s.setKeyLen v).inputs = s.inputs := rfl
@[simp] theorem setKeyLen_reads (v : BitVec 8) : (s.setKeyLen v).reads = s.reads := rfl
@[simp] theorem setKeyLen_events (v : BitVec 8) : (s.setKeyLen v).events = s.events := rfl

@[simp] theorem setTagCap_x (v : BitVec 8) : (s.setTagCap v).x = s.x := rfl
@[simp] theorem setTagCap_phase (v : BitVec 8) : (s.setTagCap v).phase = s.phase := rfl
@[simp] theorem setTagCap_blk (v : BitVec 8) : (s.setTagCap v).blk = s.blk := rfl
@[simp] theorem setTagCap_ridx (v : BitVec 8) : (s.setTagCap v).ridx = s.ridx := rfl
@[simp] theorem setTagCap_len (v : BitVec 8) : (s.setTagCap v).len = s.len := rfl
@[simp] theorem setTagCap_buf (v : BitVec 8) : (s.setTagCap v).buf = s.buf := rfl
@[simp] theorem setTagCap_tag (v : BitVec 8) : (s.setTagCap v).tag = s.tag := rfl
@[simp] theorem setTagCap_err (v : BitVec 8) : (s.setTagCap v).err = s.err := rfl
@[simp] theorem setTagCap_keyLen (v : BitVec 8) : (s.setTagCap v).keyLen = s.keyLen := rfl
@[simp] theorem setTagCap_tagCap (v : BitVec 8) : (s.setTagCap v).tagCap = v := rfl
@[simp] theorem setTagCap_msgLen (v : BitVec 8) : (s.setTagCap v).msgLen = s.msgLen := rfl
@[simp] theorem setTagCap_key (v : BitVec 8) : (s.setTagCap v).key = s.key := rfl
@[simp] theorem setTagCap_msg (v : BitVec 8) : (s.setTagCap v).msg = s.msg := rfl
@[simp] theorem setTagCap_cfg (v : BitVec 8) : (s.setTagCap v).cfg = s.cfg := rfl
@[simp] theorem setTagCap_codec (v : BitVec 8) : (s.setTagCap v).codec = s.codec := rfl
@[simp] theorem setTagCap_inputs (v : BitVec 8) : (s.setTagCap v).inputs = s.inputs := rfl
@[simp] theorem setTagCap_reads (v : BitVec 8) : (s.setTagCap v).reads = s.reads := rfl
@[simp] theorem setTagCap_events (v : BitVec 8) : (s.setTagCap v).events = s.events := rfl

@[simp] theorem setMsgLen_x (v : Nat) : (s.setMsgLen v).x = s.x := rfl
@[simp] theorem setMsgLen_phase (v : Nat) : (s.setMsgLen v).phase = s.phase := rfl
@[simp] theorem setMsgLen_blk (v : Nat) : (s.setMsgLen v).blk = s.blk := rfl
@[simp] theorem setMsgLen_ridx (v : Nat) : (s.setMsgLen v).ridx = s.ridx := rfl
@[simp] theorem setMsgLen_len (v : Nat) : (s.setMsgLen v).len = s.len := rfl
@[simp] theorem setMsgLen_buf (v : Nat) : (s.setMsgLen v).buf = s.buf := rfl
@[simp] theorem setMsgLen_tag (v : Nat) : (s.setMsgLen v).tag = s.tag := rfl
@[simp] theorem setMsgLen_err (v : Nat) : (s.setMsgLen v).err = s.err := rfl
@[simp] theorem setMsgLen_keyLen (v : Nat) : (s.setMsgLen v).keyLen = s.keyLen := rfl
@[simp] theorem setMsgLen_tagCap (v : Nat) : (s.setMsgLen v).tagCap = s.tagCap := rfl
@[simp] theorem setMsgLen_msgLen (v : Nat) : (s.setMsgLen v).msgLen = v := rfl
@[simp] theorem setMsgLen_key (v : Nat) : (s.setMsgLen v).key = s.key := rfl
@[simp] theorem setMsgLen_msg (v : Nat) : (s.setMsgLen v).msg = s.msg := rfl
@[simp] theorem setMsgLen_cfg (v : Nat) : (s.setMsgLen v).cfg = s.cfg := rfl
@[simp] theorem setMsgLen_codec (v : Nat) : (s.setMsgLen v).codec = s.codec := rfl
@[simp] theorem setMsgLen_inputs (v : Nat) : (s.setMsgLen v).inputs = s.inputs := rfl
@[simp] theorem setMsgLen_reads (v : Nat) : (s.setMsgLen v).reads = s.reads := rfl
@[simp] theorem setMsgLen_events (v : Nat) : (s.setMsgLen v).events = s.events := rfl

@[simp] theorem setKey_x (v : Memory) : (s.setKey v).x = s.x := rfl
@[simp] theorem setKey_phase (v : Memory) : (s.setKey v).phase = s.phase := rfl
@[simp] theorem setKey_blk (v : Memory) : (s.setKey v).blk = s.blk := rfl
@[simp] theorem setKey_ridx (v : Memory) : (s.setKey v).ridx = s.ridx := rfl
@[simp] theorem setKey_len (v : Memory) : (s.setKey v).len = s.len := rfl
@[simp] theorem setKey_buf (v : Memory) : (s.setKey v).buf = s.buf := rfl
@[simp] theorem setKey_tag (v : Memory) : (s.setKey v).tag = s.tag := rfl
@[simp] theorem setKey_err (v : Memory) : (s.setKey v).err = s.err := rfl
@[simp] theorem setKey_keyLen (v : Memory) : (s.setKey v).keyLen = s.keyLen := rfl
@[simp] theorem setKey_tagCap (v : Memory) : (s.setKey v).tagCap = s.tagCap := rfl
@[simp] theorem setKey_msgLen (v : Memory) : (s.setKey v).msgLen = s.msgLen := rfl
@[simp] theorem setKey_key (v : Memory) : (s.setKey v).key = v := rfl
@[simp] theorem setKey_msg (v : Memory) : (s.setKey v).msg = s.msg := rfl
@[simp] theorem setKey_cfg (v : Memory) : (s.setKey v).cfg = s.cfg := rfl
@[simp] theorem setKey_codec (v : Memory) : (s.setKey v).codec = s.codec := rfl
@[simp] theorem setKey_inputs (v : Memory) : (s.setKey v).inputs = s.inputs := rfl
@[simp] theorem setKey_reads (v : Memory) : (s.setKey v).reads = s.reads := rfl
@[simp] theorem setKey_events (v : Memory) : (s.setKey v).events = s.events := rfl

@[simp] theorem setMsg_x (v : Memory) : (s.setMsg v).x = s.x := rfl
@[simp] theorem setMsg_phase (v : Memory) : (s.setMsg v).phase = s.phase := rfl
@[simp] theorem setMsg_blk (v : Memory) : (s.setMsg v).blk = s.blk := rfl
@[simp] theorem setMsg_ridx (v : Memory) : (s.setMsg v).ridx = s.ridx := rfl
@[simp] theorem setMsg_len (v : Memory) : (s.setMsg v).len = s.len := rfl
@[simp] theorem setMsg_buf (v : Memory) : (s.setMsg v).buf = s.buf := rfl
@[simp] theorem setMsg_tag (v : Memory) : (s.setMsg v).tag = s.tag := rfl
@[simp] theorem setMsg_err (v : Memory) : (s.setMsg v).err = s.err := rfl
@[simp] theorem setMsg_keyLen (v : Memory) : (s.setMsg v).keyLen = s.keyLen := rfl
@[simp] theorem setMsg_tagCap (v : Memory) : (s.setMsg v).tagCap = s.tagCap := rfl
@[simp] theorem setMsg_msgLen (v : Memory) : (s.setMsg v).msgLen = s.msgLen := rfl
@[simp] theorem setMsg_key (v : Memory) : (s.setMsg v).key = s.key := rfl
@[simp] theorem setMsg_msg (v : Memory) : (s.setMsg v).msg = v := rfl
@[simp] theorem setMsg_cfg (v : Memory) : (s.setMsg v).cfg = s.cfg := rfl
@[simp] theorem setMsg_codec (v : Memory) : (s.setMsg v).codec = s.codec := rfl
@[simp] theorem setMsg_inputs (v : Memory) : (s.setMsg v).inputs = s.inputs := rfl
@[simp] theorem setMsg_reads (v : Memory) : (s.setMsg v).reads = s.reads := rfl
@[simp] theorem setMsg_events (v : Memory) : (s.setMsg v).events = s.events := rfl

@[simp] theorem setCfg_x (v : Config) : (s.setCfg v).x = s.x := rfl
@[simp] theorem setCfg_phase (v : Config) : (s.setCfg v).phase = s.phase := rfl
@[simp] theorem setCfg_blk (v : Config) : (s.setCfg v).blk = s.blk := rfl
@[simp] theorem setCfg_ridx (v : Config) : (s.setCfg v).ridx = s.ridx := rfl
@[simp] theorem setCfg_len (v : Config) : (s.setCfg v).len = s.len := rfl
@[simp] theorem setCfg_buf (v : Config) : (s.setCfg v).buf = s.buf := rfl
@[simp] theorem setCfg_tag (v : Config) : (s.setCfg v).tag = s.tag := rfl
@[simp] theorem setCfg_err (v : Config) : (s.setCfg v).err = s.err := rfl
@[simp] theorem setCfg_keyLen (v : Config) : (s.setCfg v).keyLen = s.keyLen := rfl
@[simp] theorem setCfg_tagCap (v : Config) : (s.setCfg v).tagCap = s.tagCap := rfl
@[simp] theorem setCfg_msgLen (v : Config) : (s.setCfg v).msgLen = s.msgLen := rfl
@[simp] theorem setCfg_key (v : Config) : (s.setCfg v).key = s.key := rfl
@[simp] theorem setCfg_msg (v : Config) : (s.setCfg v).msg = s.msg := rfl
@[simp] theorem setCfg_cfg (v : Config) : (s.setCfg v).cfg = v := rfl
@[simp] theorem setCfg_codec (v : Config) : (s.setCfg v).codec = s.codec := rfl
@[simp] theorem setCfg_inputs (v : Config) : (s.setCfg v).inputs = s.inputs := rfl
@[simp] theorem setCfg_reads (v : Config) : (s.setCfg v).reads = s.reads := rfl
@[simp] theorem setCfg_events (v : Config) : (s.setCfg v).events = s.events := rfl

@[simp] theorem setCodec_x (v : CodecPort) : (s.setCodec v).x = s.x := rfl
@[simp] theorem setCodec_phase (v : CodecPort) : (s.setCodec v).phase = s.phase := rfl
@[simp] theorem setCodec_blk (v : CodecPort) : (s.setCodec v).blk = s.blk := rfl
@[simp] theorem setCodec_ridx (v : CodecPort) : (s.setCodec v).ridx = s.ridx := rfl
@[simp] theorem setCodec_len (v : CodecPort) : (s.setCodec v).len = s.len := rfl
@[simp] theorem setCodec_buf (v : CodecPort) : (s.setCodec v).buf = s.buf := rfl
@[simp] theorem setCodec_tag (v : CodecPort) : (s.setCodec v).tag = s.tag := rfl
@[simp] theorem setCodec_err (v : CodecPort) : (s.setCodec v).err = s.err := rfl
@[simp] theorem setCodec_keyLen (v : CodecPort) : (s.setCodec v).keyLen = s.keyLen := rfl
@[simp] theorem setCodec_tagCap (v : CodecPort) : (s.setCodec v).tagCap = s.tagCap := rfl
@[simp] theorem setCodec_msgLen (v : CodecPort) : (s.setCodec v).msgLen = s.msgLen := rfl
@[simp] theorem setCodec_key (v : CodecPort) : (s.setCodec v).key = s.key := rfl
@[simp] theorem setCodec_msg (v : CodecPort) : (s.setCodec v).msg = s.msg := rfl
@[simp] theorem setCodec_cfg (v : CodecPort) : (s.setCodec v).cfg = s.cfg := rfl
@[simp] theorem setCodec_codec (v : CodecPort) : (s.setCodec v).codec = v := rfl
@[simp] theorem setCodec_inputs (v : CodecPort) : (s.setCodec v).inputs = s.inputs := rfl
@[simp] theorem setCodec_reads (v : CodecPort) : (s.setCodec v).reads = s.reads := rfl
@[simp] theorem setCodec_events (v : CodecPort) : (s.setCodec v).events = s.events := rfl

@[simp] theorem setInputs_x (v : List Input) : (s.setInputs v).x = s.x := rfl
@[simp] theorem setInputs_phase (v : List Input) : (s.setInputs v).phase = s.phase := rfl
@[simp] theorem setInputs_blk (v : List Input) : (s.setInputs v).blk = s.blk := rfl
@[simp] theorem setInputs_ridx (v : List Input) : (s.setInputs v).ridx = s.ridx := rfl
@[simp] theorem setInputs_len (v : List Input) : (s.setInputs v).len = s.len := rfl
@[simp] theorem setInputs_buf (v : List Input) : (s.setInputs v).buf = s.buf := rfl
@[simp] theorem setInputs_tag (v : List Input) : (s.setInputs v).tag = s.tag := rfl
@[simp] theorem setInputs_err (v : List Input) : (s.setInputs v).err = s.err := rfl
@[simp] theorem setInputs_keyLen (v : List Input) : (s.setInputs v).keyLen = s.keyLen := rfl
@[simp] theorem setInputs_tagCap (v : List Input) : (s.setInputs v).tagCap = s.tagCap := rfl
@[simp] theorem setInputs_msgLen (v : List Input) : (s.setInputs v).msgLen = s.msgLen := rfl
@[simp] theorem setInputs_key (v : List Input) : (s.setInputs v).key = s.key := rfl
@[simp] theorem setInputs_msg (v : List Input) : (s.setInputs v).msg = s.msg := rfl
@[simp] theorem setInputs_cfg (v : List Input) : (s.setInputs v).cfg = s.cfg := rfl
@[simp] theorem setInputs_codec (v : List Input) : (s.setInputs v).codec = s.codec := rfl
@[simp] theorem setInputs_inputs (v : List Input) : (s.setInputs v).inputs = v := rfl
@[simp] theorem setInputs_reads (v : List Input) : (s.setInputs v).reads = s.reads := rfl
@[simp] theorem setInputs_events (v : List Input) : (s.setInputs v).events = s.events := rfl

@[simp] theorem setReads_x (v : List HostRead) : (s.setReads v).x = s.x := rfl
@[simp] theorem setReads_phase (v : List HostRead) : (s.setReads v).phase = s.phase := rfl
@[simp] theorem setReads_blk (v : List HostRead) : (s.setReads v).blk = s.blk := rfl
@[simp] theorem setReads_ridx (v : List HostRead) : (s.setReads v).ridx = s.ridx := rfl
@[simp] theorem setReads_len (v : List HostRead) : (s.setReads v).len = s.len := rfl
@[simp] theorem setReads_buf (v : List HostRead) : (s.setReads v).buf = s.buf := rfl
@[simp] theorem setReads_tag (v : List HostRead) : (s.setReads v).tag = s.tag := rfl
@[simp] theorem setReads_err (v : List HostRead) : (s.setReads v).err = s.err := rfl
@[simp] theorem setReads_keyLen (v : List HostRead) : (s.setReads v).keyLen = s.keyLen := rfl
@[simp] theorem setReads_tagCap (v : List HostRead) : (s.setReads v).tagCap = s.tagCap := rfl
@[simp] theorem setReads_msgLen (v : List HostRead) : (s.setReads v).msgLen = s.msgLen := rfl
@[simp] theorem setReads_key (v : List HostRead) : (s.setReads v).key = s.key := rfl
@[simp] theorem setReads_msg (v : List HostRead) : (s.setReads v).msg = s.msg := rfl
@[simp] theorem setReads_cfg (v : List HostRead) : (s.setReads v).cfg = s.cfg := rfl
@[simp] theorem setReads_codec (v : List HostRead) : (s.setReads v).codec = s.codec := rfl
@[simp] theorem setReads_inputs (v : List HostRead) : (s.setReads v).inputs = s.inputs := rfl
@[simp] theorem setReads_reads (v : List HostRead) : (s.setReads v).reads = v := rfl
@[simp] theorem setReads_events (v : List HostRead) : (s.setReads v).events = s.events := rfl

@[simp] theorem setEvents_x (v : List Event) : (s.setEvents v).x = s.x := rfl
@[simp] theorem setEvents_phase (v : List Event) : (s.setEvents v).phase = s.phase := rfl
@[simp] theorem setEvents_blk (v : List Event) : (s.setEvents v).blk = s.blk := rfl
@[simp] theorem setEvents_ridx (v : List Event) : (s.setEvents v).ridx = s.ridx := rfl
@[simp] theorem setEvents_len (v : List Event) : (s.setEvents v).len = s.len := rfl
@[simp] theorem setEvents_buf (v : List Event) : (s.setEvents v).buf = s.buf := rfl
@[simp] theorem setEvents_tag (v : List Event) : (s.setEvents v).tag = s.tag := rfl
@[simp] theorem setEvents_err (v : List Event) : (s.setEvents v).err = s.err := rfl
@[simp] theorem setEvents_keyLen (v : List Event) : (s.setEvents v).keyLen = s.keyLen := rfl
@[simp] theorem setEvents_tagCap (v : List Event) : (s.setEvents v).tagCap = s.tagCap := rfl
@[simp] theorem setEvents_msgLen (v : List Event) : (s.setEvents v).msgLen = s.msgLen := rfl
@[simp] theorem setEvents_key (v : List Event) : (s.setEvents v).key = s.key := rfl
@[simp] theorem setEvents_msg (v : List Event) : (s.setEvents v).msg = s.msg := rfl
@[simp] theorem setEvents_cfg (v : List Event) : (s.setEvents v).cfg = s.cfg := rfl
@[simp] theorem setEvents_codec (v : List Event) : (s.setEvents v).codec = s.codec := rfl
@[simp] theorem setEvents_inputs (v : List Event) : (s.setEvents v).inputs = s.inputs := rfl
@[simp] theorem setEvents_reads (v : List Event) : (s.setEvents v).reads = s.reads := rfl
@[simp] theorem setEvents_events (v : List Event) : (s.setEvents v).events = v := rfl

end Sys2Proof.Machine.State
end

