-- ==== Sys2Proof/Laws/Ops.lean ====
section
/-! SUPPORT. What each shared operation over the state does, once: every field it writes, and that it writes no other. -/

namespace Sys2Proof.Machine

@[simp] theorem nextRidx_of_lt {i : Fin 13} (h : i.val < 12) : (nextRidx i).val = i.val + 1 := by
  simp [nextRidx, h]

@[simp] theorem nextRidx_twelve : nextRidx 12 = 12 := rfl

/-- The engine is idle exactly when no round is pending. -/
theorem ridx_eq_twelve_iff (i : Fin 13) : i = 12 ↔ ¬ i.val < 12 := by
  constructor
  · rintro rfl; decide
  · intro h; ext; have := i.isLt; show i.val = 12; omega

/-- A request writes `ridx` and the event history. -/
theorem requestPerm_eq (r : BitVec 4) (s : State) :
    requestPerm r s = { s with ridx := ⟨12 - r.toNat, by omega⟩, events := .perm r :: s.events } := rfl

/-- The request the driver makes (R63: "the driver always presents 12"). -/
theorem requestPerm_twelve (s : State) :
    requestPerm 12 s = { s with ridx := 0, events := .perm 12 :: s.events } := rfl

/-- A round step writes `x` and `ridx`. -/
theorem roundStep_eq {s : State} (h : s.ridx.val < 12) :
    roundStep s = { s with x := roundWords s.cfg ⟨s.ridx.val, h⟩ s.x, ridx := ⟨s.ridx.val + 1, Nat.succ_lt_succ h⟩ } := by
  simp [roundStep, h, nextRidx, State.setX, State.setRidx]

/-- With the engine idle there is no round step. -/
theorem roundStep_idle {s : State} (h : ¬ s.ridx.val < 12) : roundStep s = s := by simp [roundStep, h]

/-- What an accepted command writes (R91, R93). -/
theorem acceptCommand_eq (s : State) :
    acceptCommand s = { s with
      err := .none, len := s.msgLen, blk := 0, tag := Vector.replicate 16 0,
      x := initWords s.cfg (memRead s.key 0 8) (memRead s.key 8 8), ridx := 0, phase := .init,
      events := [.perm 12, .memRead .key 8 8, .memRead .key 0 8] ++ s.events } := by
  simp only [acceptCommand, requestPerm_twelve, State.noteRead, State.note, State.setErr, State.setLen, State.setBlk, State.setTag,
    State.setX, State.setPhase, State.setEvents, Nat.reduceEqDiff, if_false, List.cons_append, List.nil_append]

/-- What the absorption of a complete block writes (R94). -/
theorem loadFullBlock_eq (s : State) :
    loadFullBlock s = { s with
      x := absorbChunks s.x (memRead s.msg (chunkAddr s.blk 0) 8) (memRead s.msg (chunkAddr s.blk 1) 8)
        (memRead s.msg (chunkAddr s.blk 2) 8) (memRead s.msg (chunkAddr s.blk 3) 8),
      blk := s.blk + 1, ridx := 0,
      events := [.perm 12, .memRead .msg (chunkAddr s.blk 3) 8, .memRead .msg (chunkAddr s.blk 2) 8,
        .memRead .msg (chunkAddr s.blk 1) 8, .memRead .msg (chunkAddr s.blk 0) 8] ++ s.events } := by
  simp only [loadFullBlock, requestPerm_twelve, State.noteRead, State.note, State.setBlk, State.setX, State.setEvents,
    Nat.reduceEqDiff, if_false, List.cons_append, List.nil_append]

/-- What the final-block load writes (R95). -/
theorem loadFinalBlock_eq (s : State) :
    loadFinalBlock s = { s with
      buf := finalBlock s.msg s.len, x := domainSeparate (absorbBlock s.x (finalBlock s.msg s.len)), ridx := 0,
      phase := .absorbFinal,
      events := .perm 12 :: ((if tailLen s.len = 0 then [] else [.memRead .msg (tailAddr s.len) (tailLen s.len)]) ++ s.events) } := by
  simp only [loadFinalBlock, requestPerm_twelve, State.noteRead, State.note, State.setBuf, State.setX, State.setPhase,
    State.setEvents]
  split <;> simp

/-- The two writes of 8 bytes make the 16 tag bytes (R54, R96). -/
theorem writeTag_eq (s : State) : writeTag s = { s with tag := tagBytes s.x.x0 s.x.x1 } := by
  have : memWriteTag (memWriteTag s.tag 0 (w2b s.x.x0)) 8 (w2b s.x.x1) = tagBytes s.x.x0 s.x.x1 := by
    refine Vector.ext fun k hk => ?_
    by_cases h : k < 8
    · simp [memWriteTag, tagBytes, h, show ¬ 8 ≤ k by omega]
    · simp [memWriteTag, tagBytes, h, show 8 ≤ k by omega]
  simp only [writeTag, this, State.setTag]

/-- The discard writes `x` and `BUF` (R97). -/
theorem discardState_eq (s : State) : discardState s = { s with x := Words.zero, buf := Vector.replicate 32 0 } := rfl

/-- A rejection writes `ERR` (R117). -/
theorem raise_eq (e : ErrCode) (s : State) : raise e s = { s with err := e } := rfl

/-- What `SQUEEZE` writes (R96, R97). -/
theorem execSqueeze_eq (s : State) :
    execSqueeze s = .next { s with
      tag := tagBytes s.x.x0 s.x.x1, x := Words.zero, buf := Vector.replicate 32 0, phase := .done } := by
  simp only [execSqueeze, writeTag_eq]
  rfl

/-- No meaning of the driver is anything but a next state. -/
theorem execComputeTag_cases (s : State) :
    (s.phase.busy = true ∧ execComputeTag s = .next s) ∨
    (s.phase.busy = false ∧ ∃ e, execComputeTag s = .next (raise e s)) ∨
    (s.phase.busy = false ∧ s.keyLen = 16#8 ∧ 16 ≤ s.tagCap.toNat ∧ execComputeTag s = .next (acceptCommand s)) := by
  unfold execComputeTag
  cases hb : s.phase.busy
  · by_cases hk : s.keyLen = 16#8
    · by_cases ht : s.tagCap.toNat < 16
      · exact .inr (.inl ⟨rfl, .bufferTooSmall, by simp [hk, ht]⟩)
      · exact .inr (.inr ⟨rfl, hk, by omega, by simp [hk, ht]⟩)
    · exact .inr (.inl ⟨rfl, .invalidKeyLength, by simp [hk]⟩)
  · exact .inl ⟨rfl, by simp⟩

end Sys2Proof.Machine
end

