-- ==== Sys2Proof/Laws/PerInstr.lean ====
section
/-! SUPPORT. Laws about every operation as syntax, one lemma per constructor. -/

namespace Sys2Proof.Laws.TableRow

/-- The select word the encoder writes is one of the operation's row of the opcode table, and fits in its format's
width (R59, R60). -/
def Statement (i : Instr) : Prop := i.row.fits (encode i) = true ∧ (encode i).bits < 2 ^ i.row.width

theorem addc (i : BitVec 4) : Statement (.addc i) := by revert i; unfold Statement; decide
theorem subs : Statement .subs := by unfold Statement; decide
theorem diff : Statement .diff := by unfold Statement; decide
theorem round (i : BitVec 4) : Statement (.round i) := by revert i; unfold Statement; decide
theorem perm (r : BitVec 4) : Statement (.perm r) := by revert r; unfold Statement; decide
theorem b2w : Statement .b2w := by unfold Statement; decide
theorem w2b : Statement .w2b := by unfold Statement; decide
theorem rotr (n : BitVec 6) : Statement (.rotr n) := by revert n; unfold Statement; decide
theorem computeTag : Statement .computeTag := by unfold Statement; decide
theorem idle : Statement .idle := by unfold Statement; decide
theorem init : Statement .init := by unfold Statement; decide
theorem absorbFull : Statement .absorbFull := by unfold Statement; decide
theorem absorbFinal : Statement .absorbFinal := by unfold Statement; decide
theorem squeeze : Statement .squeeze := by unfold Statement; decide
theorem done : Statement .done := by unfold Statement; decide

end Sys2Proof.Laws.TableRow
end

