-- ==== Sys2Proof/Laws/Step.lean ====
section
/-! SUPPORT. What a step can do: the core's step row by row, the step of the whole by what is pending, and runs of the
core. -/

namespace Sys2Proof.Machine

@[simp] theorem onNext_next (f : State → State) (t : State) : onNext f (.next t) = .next (f t) := rfl

theorem onNext_id {f : State → State} (h : ∀ t, f t = t) (o : Host.Outcome State Fault Refusal) : onNext f o = o := by
  cases o <;> simp [onNext, h]

/-- The round controller's select word decodes to the round it names (R63). -/
theorem decode_round (i : Nat) (h : i < 12) :
    decode (.rstep (0b11#2 ++ BitVec.ofNat 4 i)) = .ok (.round (BitVec.ofNat 4 i)) := by
  interval_cases i <;> decide

/-- While a permutation is in progress the core's step is the round step, in every phase (R77, row T1 of R100). -/
theorem coreStep_round {s : State} (h : s.ridx.val < 12) : coreStep s = .next (roundStep s) := by
  have hr : exec (.round (BitVec.ofNat 4 s.ridx.val)) s = .next (s.setX (roundWords s.cfg ⟨s.ridx.val, h⟩ s.x)) := by
    have ht : (BitVec.ofNat 4 s.ridx.val).toNat = s.ridx.val := by simp; omega
    show execRound _ s = _
    simp [execRound, ht, h]
  simp only [coreStep, runSelect, fetch, h, if_true, decode_round _ h, hr, onNext_next, advance, roundStep, dif_pos]

/-- The operation of a phase. -/
def phaseOp : Phase → Instr
  | .idle => .idle
  | .init => .init
  | .absorbFull => .absorbFull
  | .absorbFinal => .absorbFinal
  | .squeeze => .squeeze
  | .done => .done

theorem decode_phase (p : Phase) : decode (.phase p.code) = .ok (phaseOp p) := by cases p <;> rfl

/-- With the engine idle the core's step is the operation of its phase (R62). -/
theorem coreStep_phase {s : State} (h : ¬ s.ridx.val < 12) : coreStep s = exec (phaseOp s.phase) s := by
  simp only [coreStep, runSelect, fetch, h, if_false, decode_phase]
  exact onNext_id (by intro t; simp [advance, h]) _

/-- The core's step, row by row (R100); with `IDLE` and `DONE`, whose operations change nothing a host can reach. -/
theorem coreStep_cases (s : State) :
    (s.ridx.val < 12 ∧ coreStep s = .next (roundStep s)) ∨
    (s.ridx = 12 ∧ (
      (s.phase = .idle ∧ coreStep s = .next s) ∨
      (s.phase = .init ∧ coreStep s = .next (s.setPhase .absorbFull)) ∨
      (s.phase = .absorbFull ∧ s.blk < numBlocks s.len ∧ coreStep s = .next (loadFullBlock s)) ∨
      (s.phase = .absorbFull ∧ ¬ s.blk < numBlocks s.len ∧ coreStep s = .next (loadFinalBlock s)) ∨
      (s.phase = .absorbFinal ∧ coreStep s = .next (s.setPhase .squeeze)) ∨
      (s.phase = .squeeze ∧ coreStep s = .next ((discardState (writeTag s)).setPhase .done)) ∨
      (s.phase = .done ∧ coreStep s = .next (discardState s)))) := by
  by_cases h : s.ridx.val < 12
  · exact .inl ⟨h, coreStep_round h⟩
  · refine .inr ⟨(ridx_eq_twelve_iff _).2 h, ?_⟩
    rw [coreStep_phase h]
    cases hp : s.phase
    · simp [phaseOp, exec, execIdle]
    · simp [phaseOp, exec, execInit, h]
    · by_cases hb : s.blk < numBlocks s.len <;> simp [phaseOp, exec, execAbsorbFull, h, hb]
    · simp [phaseOp, exec, execAbsorbFinal, h]
    · simp [phaseOp, exec, execSqueeze]
    · simp [phaseOp, exec, execDone]

/-- The core's step always answers a next state (R101: "it cannot get stuck"). -/
theorem coreStep_next (s : State) : ∃ t, coreStep s = .next t := by
  rcases coreStep_cases s with ⟨-, h⟩ | ⟨-, ⟨-, h⟩ | ⟨-, h⟩ | ⟨-, -, h⟩ | ⟨-, -, h⟩ | ⟨-, h⟩ | ⟨-, h⟩ | ⟨-, h⟩⟩ <;> exact ⟨_, h⟩

/-- A command decodes to `COMPUTE_TAG` or is reserved (R61). -/
theorem writeCmd_cases (v : BitVec 8) (s : State) :
    (v = 0x01#8 ∧ writeCmd v s = execComputeTag s) ∨ (v ≠ 0x01#8 ∧ writeCmd v s = .next (reservedCommand s)) := by
  by_cases h : v = 0x01#8
  · subst h; exact .inl ⟨rfl, rfl⟩
  · refine .inr ⟨h, ?_⟩
    have : decode (.hostcmd v) = .rejected (.reservedCommand v) := by
      show decodeHostcmd v = _
      rw [decodeHostcmd, if_neg h]
    simp only [writeCmd, this]

/-- A write to `CMD` leaves the state, or writes `ERR`, or starts a computation (R91). -/
theorem writeCmd_next (v : BitVec 8) (s : State) :
    writeCmd v s = .next s ∨ (s.phase.busy = false ∧ ∃ e, writeCmd v s = .next (raise e s)) ∨
    (s.phase.busy = false ∧ s.keyLen = 16#8 ∧ 16 ≤ s.tagCap.toNat ∧ writeCmd v s = .next (acceptCommand s)) := by
  rcases writeCmd_cases v s with ⟨-, h⟩ | ⟨-, h⟩
  · rw [h]
    rcases execComputeTag_cases s with ⟨-, h'⟩ | h' | h'
    · exact .inl h'
    · exact .inr (.inl h')
    · exact .inr (.inr h')
  · cases hb : s.phase.busy
    · exact .inr (.inl ⟨rfl, .illegalCommand, by simp [h, reservedCommand, hb]⟩)
    · exact .inl (by simp [h, reservedCommand, hb])

/-- A step of the whole: the core's step, or the first pending input taken (D1). -/
theorem step_cases (s : State) :
    step s = coreStep s ∨ ∃ i rest, s.inputs = i :: rest ∧ i.ready s = true ∧ step s = takeInput i (s.setInputs rest) := by
  unfold step nextStep
  cases hi : s.inputs with
  | nil => exact .inl rfl
  | cons i rest =>
    cases hr : i.ready s
    · exact .inl (by simp [hr])
    · exact .inr ⟨i, rest, rfl, hr, by simp [hr]⟩

/-- What a word at an internal select does, if it answers a next state: `x`, or a request with the engine idle, or the
codec's wires (R63). -/
theorem runSelect_internal {w : Select} {s t : State}
    (hw : (∃ r, w = .engreq r) ∨ (∃ c, w = .rstep c) ∨ (∃ c, w = .codec c)) (hs : runSelect w s = .next t) :
    (∃ X, t = s.setX X) ∨ (∃ r, t = requestPerm r s ∧ s.ridx = 12) ∨ (∃ c, t = s.setCodec c) := by
  unfold runSelect at hs
  cases hd : decode w with
  | rejected e => rw [hd] at hs; cases hs
  | ok i =>
    rw [hd] at hs
    rcases hw with ⟨r, rfl⟩ | ⟨c, rfl⟩ | ⟨c, rfl⟩
    · simp only [decode, decodeEngreq] at hd
      by_cases hr : 1 ≤ r.toNat ∧ r.toNat ≤ 12
      · rw [if_pos hr] at hd
        cases hd
        simp only [exec, execPerm, if_pos hr] at hs
        by_cases h : s.ridx = 12
        · rw [if_pos h] at hs
          cases hs
          exact .inr (.inl ⟨_, rfl, h⟩)
        · rw [if_neg h] at hs
          cases hs
      · rw [if_neg hr] at hd
        cases hd
    · simp only [decode, decodeRstep] at hd
      split_ifs at hd <;> cases hd <;> simp only [exec, execAddc, execSubs, execDiff, execRound] at hs <;>
        (try split at hs) <;> cases hs <;> exact .inl ⟨_, rfl⟩
    · simp only [decode, decodeCodec] at hd
      split_ifs at hd <;> cases hd <;> cases hs <;> exact .inr (.inr ⟨_, rfl⟩)

/-! ### Inversion: if a step answers `t`, what `t` can be -/

/-- The core's step. -/
theorem coreStep_inv {s t : State} (hs : coreStep s = .next t) :
    (∃ h : s.ridx.val < 12, t = { s with
      x := roundWords s.cfg ⟨s.ridx.val, h⟩ s.x, ridx := ⟨s.ridx.val + 1, Nat.succ_lt_succ h⟩ }) ∨
    (s.ridx = 12 ∧ (t = s ∨
      (s.phase = .init ∧ t = s.setPhase .absorbFull) ∨
      (s.phase = .absorbFull ∧ s.blk < numBlocks s.len ∧ t = loadFullBlock s) ∨
      (s.phase = .absorbFull ∧ ¬ s.blk < numBlocks s.len ∧ t = loadFinalBlock s) ∨
      (s.phase = .absorbFinal ∧ t = s.setPhase .squeeze) ∨
      (s.phase = .squeeze ∧ t = { s with
        tag := tagBytes s.x.x0 s.x.x1, x := Words.zero, buf := Vector.replicate 32 0, phase := .done }) ∨
      (s.phase = .done ∧ t = discardState s))) := by
  rcases coreStep_cases s with ⟨h1, h⟩ | ⟨hr, ⟨ph, h⟩ | ⟨ph, h⟩ | ⟨ph, hb, h⟩ | ⟨ph, hb, h⟩ | ⟨ph, h⟩ | ⟨ph, h⟩ | ⟨ph, h⟩⟩ <;>
    rw [h] at hs <;> cases hs
  · exact .inl ⟨h1, roundStep_eq h1⟩
  · exact .inr ⟨hr, .inl rfl⟩
  · exact .inr ⟨hr, .inr (.inl ⟨ph, rfl⟩)⟩
  · exact .inr ⟨hr, .inr (.inr (.inl ⟨ph, hb, rfl⟩))⟩
  · exact .inr ⟨hr, .inr (.inr (.inr (.inl ⟨ph, hb, rfl⟩)))⟩
  · exact .inr ⟨hr, .inr (.inr (.inr (.inr (.inl ⟨ph, rfl⟩))))⟩
  · refine .inr ⟨hr, .inr (.inr (.inr (.inr (.inr (.inl ⟨ph, ?_⟩)))))⟩
    rw [writeTag_eq]
    rfl
  · exact .inr ⟨hr, .inr (.inr (.inr (.inr (.inr (.inr ⟨ph, rfl⟩)))))⟩

/-- A write to `CMD`. -/
theorem writeCmd_inv {v : BitVec 8} {s t : State} (hs : writeCmd v s = .next t) :
    t = s ∨ (s.phase.busy = false ∧ ∃ e, t = raise e s) ∨ (s.phase.busy = false ∧ t = acceptCommand s) := by
  rcases writeCmd_next v s with h | ⟨hb, e, h⟩ | ⟨hb, -, -, h⟩ <;> rw [h] at hs <;> cases hs
  · exact .inl rfl
  · exact .inr (.inl ⟨hb, e, rfl⟩)
  · exact .inr (.inr ⟨hb, rfl⟩)

/-- A move of the host: a command, the reset, or one of those that write a parameter register, a byte of `KEY` or `MSG`,
or the host's own list of reads. -/
theorem hostStep_inv {m : HostMove} {s t : State} (hs : hostStep m s = .next t) :
    (∃ v, m = .wrCmd v ∧ writeCmd v s = .next t) ∨ (m = .reset ∧ t = hardReset s) ∨
    t = s ∨ (∃ v, t = s.setKeyLen v) ∨ (∃ v, t = s.setTagCap v) ∨ (∃ n, t = s.setMsgLen n) ∨
    (∃ (i : Fin 16) (b : Byte), t = s.setKey (s.key.write i.val b)) ∨
    (s.phase.busy = false ∧ ∃ (i : Nat) (b : Byte), t = s.setMsg (s.msg.write i b)) ∨ (∃ r, t = s.observe r) := by
  cases m with
  | wrCmd v => exact .inl ⟨v, rfl, hs⟩
  | reset => cases hs; exact .inr (.inl ⟨rfl, rfl⟩)
  | wrMsg i b =>
    simp only [hostStep] at hs
    split at hs
    · cases hs
    · next hb => cases hs; simp only [Bool.not_eq_true] at hb; exact .inr (.inr (.inr (.inr (.inr (.inr (.inr (.inl ⟨hb, i, b, rfl⟩)))))))
  | wrStatus v => cases hs; simp
  | wrTag i b => cases hs; simp
  | wrKeyLen v => cases hs; simp
  | wrTagCap v => cases hs; simp
  | wrMsgLen n => cases hs; simp
  | wrKey i b => cases hs; exact .inr (.inr (.inr (.inr (.inr (.inr (.inl ⟨i, b, rfl⟩))))))
  | rdCmd => cases hs; simp
  | rdStatus => cases hs; simp
  | rdKeyLen => cases hs; simp
  | rdTagCap => cases hs; simp
  | rdMsgLen => cases hs; simp
  | rdTag i => cases hs; simp

/-- A step of the whole: the core's step, with or without an input popped; a move of the host; a word at an internal
select, which no host can make; or new values on the codec's operand wires. -/
theorem step_inv {s t : State} (hs : step s = .next t) :
    (∃ rest, (rest = s.inputs ∨ s.inputs = .pass :: rest) ∧ coreStep (s.setInputs rest) = .next t) ∨
    (∃ b m rest, s.inputs = .host b m :: rest ∧ hostStep m (s.setInputs rest) = .next t) ∨
    (∃ i rest, s.inputs = i :: rest ∧ quiescent s = true ∧ i.fromHost = false ∧
      ((∃ X, t = (s.setInputs rest).setX X) ∨ (∃ r, t = requestPerm r (s.setInputs rest) ∧ s.ridx = 12) ∨
        (∃ c, t = (s.setInputs rest).setCodec c))) ∨
    (∃ b w rest, s.inputs = .driveCodec b w :: rest ∧ ∃ c, t = (s.setInputs rest).setCodec c) := by
  rcases step_cases s with h1 | ⟨i, rest, hi, hr, h1⟩ <;> rw [h1] at hs
  · exact .inl ⟨s.inputs, .inl rfl, hs⟩
  · cases i with
    | host b m => exact .inr (.inl ⟨b, m, rest, hi, hs⟩)
    | pass => exact .inl ⟨rest, .inr hi, hs⟩
    | engreq r =>
      have h : runSelect (.engreq r) (s.setInputs rest) = .next t := hs
      exact .inr (.inr (.inl ⟨_, rest, hi, hr, rfl, runSelect_internal (.inl ⟨_, rfl⟩) h⟩))
    | rstep c =>
      have h : runSelect (.rstep c) (s.setInputs rest) = .next t := hs
      exact .inr (.inr (.inl ⟨_, rest, hi, hr, rfl, runSelect_internal (.inr (.inl ⟨_, rfl⟩)) h⟩))
    | codec c =>
      have h : runSelect (.codec c) (s.setInputs rest) = .next t := hs
      exact .inr (.inr (.inl ⟨_, rest, hi, hr, rfl, runSelect_internal (.inr (.inr ⟨_, rfl⟩)) h⟩))
    | driveCodec b w => cases hs; exact .inr (.inr (.inr ⟨b, w, rest, hi, _, rfl⟩))

/-! ### Runs of the core -/

@[simp] theorem coreRun_zero (s : State) : coreRun 0 s = .next s := rfl

theorem coreRun_succ {s t : State} (k : Nat) (h : coreStep s = .next t) : coreRun (k + 1) s = coreRun k t := by
  simp [coreRun, h]

/-- Runs compose. -/
theorem coreRun_add {s t : State} (j k : Nat) (h : coreRun j s = .next t) : coreRun (j + k) s = coreRun k t := by
  induction j generalizing s with
  | zero => simp_all [coreRun]
  | succ j ih =>
    obtain ⟨u, hu⟩ := coreStep_next s
    rw [coreRun_succ j hu] at h
    rw [Nat.add_right_comm, coreRun_succ (j + k) hu]
    exact ih h

end Sys2Proof.Machine
end

