-- ==== Sys2Proof/Laws/Words.lean ====
section
/-! SUPPORT. The bits of the codec's results and of a rotation, one lemma per function. -/

namespace Sys2Proof.Machine

/-- Bit `i` of `B2W(b)` is a bit of byte `7 − i/8` (R83). -/
theorem b2w_getLsbD (b : Vector Byte 8) (i : Nat) (hi : i < 64) :
    (b2w b).getLsbD i = b[7 - i / 8].getLsbD (i % 8) := by
  have h : i / 8 = 0 ∨ i / 8 = 1 ∨ i / 8 = 2 ∨ i / 8 = 3 ∨ i / 8 = 4 ∨ i / 8 = 5 ∨ i / 8 = 6 ∨ i / 8 = 7 := by omega
  simp only [b2w, BitVec.getLsbD_append]
  rcases h with h | h | h | h | h | h | h | h <;> simp only [h] <;> split_ifs <;> first | omega | (congr 1; omega)

/-- Bit `j` of byte `k` of `W2B(w)` is bit `56 − 8k + j` of the word (R84). -/
theorem w2b_getLsbD (w : Word) (k j : Nat) (hk : k < 8) (hj : j < 8) :
    (w2b w)[k].getLsbD j = w.getLsbD (56 - 8 * k + j) := by
  simp [w2b, hj]

/-- Bit `k` of `ROTR(w, n)` is bit `(k + n) mod 64` of the word (R86). -/
theorem rotr_getLsbD (w : Word) (n : BitVec 6) (k : Nat) (hk : k < 64) :
    (rotr w n).getLsbD k = w.getLsbD ((k + n.toNat) % 64) := by
  have hn : n.toNat < 64 := n.isLt
  simp only [rotr, BitVec.getLsbD_or, BitVec.getLsbD_ushiftRight, BitVec.getLsbD_shiftLeft]
  by_cases h : k + n.toNat < 64
  · rw [Nat.mod_eq_of_lt h, Nat.add_comm]
    simp [show k < 64 - n.toNat by omega]
  · rw [show (k + n.toNat) % 64 = k + n.toNat - 64 by omega, BitVec.getLsbD_of_ge w (n.toNat + k) (by omega)]
    simp only [hk, decide_true, show ¬ k < 64 - n.toNat by omega, decide_false, Bool.not_false, Bool.true_and, Bool.false_or]
    congr 1
    omega

/-- Byte `k` of a padded block (R52). -/
theorem padBlock_getElem (t : Nat) (tail : Vector Byte t) (k : Nat) (hk : k < 32) :
    (padBlock t tail)[k] = if h : k < t then tail[k] else if k = t then padByte else 0x00 := by
  simp [padBlock]

/-- Byte `k` of chunk `j` of a block (R51). -/
theorem blockChunk_getElem (b : Vector Byte 32) (j : Fin 4) (k : Nat) (hk : k < 8) :
    (blockChunk b j)[k] = b[8 * j.val + k] := by
  simp [blockChunk]

/-- The byte of a tag (R54). -/
theorem tagBytes_getElem (w0 w1 : Word) (k : Nat) (hk : k < 16) :
    (tagBytes w0 w1)[k] = if h : k < 8 then (w2b w0)[k] else (w2b w1)[k - 8] := by
  simp [tagBytes]

end Sys2Proof.Machine
end

