-- ==== Sys2Proof/Tests/Slice0.lean ====
section
/-! SUPPORT. The model's own tests and the witnesses of its statements' hypotheses. Expected words come from the encoding
column of R60, expected values from 95_test_vectors.md (section 2 and programs P1 to P4) or from the rule named; each
test takes one step, or evaluates one function, on a small state. -/

namespace Sys2Proof.Tests

set_option Elab.async false

open Sys2Proof.Machine

/-! ### Helpers -/

/-- The next state of an outcome, if it is one. -/
def got : Host.Outcome State Fault Refusal → Option State
  | .next t => some t
  | .fault _ => none
  | .refused _ => none

/-- The refusal of an outcome, if it is one. -/
def stopped : Host.Outcome State Fault Refusal → Option Refusal
  | .next _ => none
  | .fault _ => none
  | .refused e => some e

/-- The sample state `X` of section 2.3. -/
def wordsX : Words := ⟨0x0123456789abcdef, 0xfedcba9876543210, 0x0f1e2d3c4b5a6978, 0x8796a5b4c3d2e1f0, 0xdeadbeefcafebabe⟩

/-- The words after INIT's `PERM 12` with key `K1` (section 2.6). -/
def wordsI : Words := ⟨0x8774a1fe97b38f77, 0x4286815fdd57e50f, 0xc7fa2116c8097df3, 0x7139350633cec88c, 0x6db5c5216d495140⟩

/-- `first n + 1 .. first n + k` bytes holding their own index. -/
def counted (n : Nat) : Memory := (List.range n).map fun a => (a + 1, BitVec.ofNat 8 (a + 1))

/-- The state after reset with given words, as a bench at the engine's port sees it. -/
def bench (X : Words) : State := State.reset.setX X

/-- The state after reset with key `K1`, legal lengths and the message `M_len`. -/
def ready (len : Nat) : State :=
  { State.reset with keyLen := 16, tagCap := 16, msgLen := len, key := counted 15, msg := counted (len - 1) }

/-- A state of phase `p` with the engine idle, words `X`, and the message `M_len` latched. -/
def inPhase (p : Phase) (len blk : Nat) (X : Words) : State :=
  { ready len with phase := p, len := len, blk := blk, x := X }

/-! ### WellFormed: each check refuses an ill-formed operation -/

theorem test_wellFormed_addc : (Instr.addc 11).wellFormed = true ∧ (Instr.addc 12).wellFormed = false := by decide
theorem test_wellFormed_round : (Instr.round 11).wellFormed = true ∧ (Instr.round 15).wellFormed = false := by decide
theorem test_wellFormed_perm_low : (Instr.perm 1).wellFormed = true ∧ (Instr.perm 0).wellFormed = false := by decide
theorem test_wellFormed_perm_high : (Instr.perm 12).wellFormed = true ∧ (Instr.perm 13).wellFormed = false := by decide

/-! ### Decode: every operation's word, written out from the encoding column of R60 -/

theorem test_decode_addc : decode (.rstep 0b001011) = .ok (.addc 11) := by decide
theorem test_decode_subs : decode (.rstep 0b011111) = .ok .subs := by decide
theorem test_decode_diff : decode (.rstep 0b101010) = .ok .diff := by decide
theorem test_decode_round : decode (.rstep 0b111011) = .ok (.round 11) := by decide
theorem test_decode_perm : decode (.engreq 0b0110) = .ok (.perm 6) := by decide
theorem test_decode_b2w : decode (.codec 0b00111111) = .ok .b2w := by decide
theorem test_decode_w2b : decode (.codec 0b01000001) = .ok .w2b := by decide
theorem test_decode_rotr : decode (.codec 0b10111101) = .ok (.rotr 61) := by decide
theorem test_decode_computeTag : decode (.hostcmd 0b00000001) = .ok .computeTag := by decide
theorem test_decode_idle : decode (.phase 0b000) = .ok .idle := by decide
theorem test_decode_init : decode (.phase 0b001) = .ok .init := by decide
theorem test_decode_absorbFull : decode (.phase 0b010) = .ok .absorbFull := by decide
theorem test_decode_absorbFinal : decode (.phase 0b011) = .ok .absorbFinal := by decide
theorem test_decode_squeeze : decode (.phase 0b100) = .ok .squeeze := by decide
theorem test_decode_done : decode (.phase 0b101) = .ok .done := by decide

/-! ### Decode: every row of R64 is rejected by name, at the ends of its range -/

theorem test_reserved_hostcmd : decode (.hostcmd 0x00) = .rejected (.reservedCommand 0x00) ∧
    decode (.hostcmd 0x02) = .rejected (.reservedCommand 0x02) ∧ decode (.hostcmd 0xff) = .rejected (.reservedCommand 0xff) := by
  decide
theorem test_reserved_phase : decode (.phase 6) = .rejected (.reservedPhase 6) ∧
    decode (.phase 7) = .rejected (.reservedPhase 7) := by decide
theorem test_reserved_engreq : decode (.engreq 0) = .rejected (.roundCountOutOfRange 0) ∧
    decode (.engreq 13) = .rejected (.roundCountOutOfRange 13) ∧ decode (.engreq 15) = .rejected (.roundCountOutOfRange 15) := by
  decide
theorem test_reserved_rstep : decode (.rstep 0b001100) = .rejected (.roundIndexOutOfRange 12) ∧
    decode (.rstep 0b111111) = .rejected (.roundIndexOutOfRange 15) := by decide
theorem test_reserved_codec : decode (.codec 0b11000000) = .rejected (.reservedCodec 0) := by decide

/-! ### The host's numbered words, by the width of the row -/

theorem test_tableWord : decodeTableWord 6 0x00 = some (.addc 0) ∧ decodeTableWord 4 12 = some (.perm 12) ∧
    decodeTableWord 3 1 = some .init ∧ decodeTableWord 8 0x93 = some (.rotr 19) ∧ decodeTableWord 8 0x01 = some .computeTag := by
  decide

/-! ### The engine (sections 2.3 and 2.4, program P4) -/

theorem test_addc : got (exec (.addc 0) (bench wordsX)) = some (bench { wordsX with x2 := 0x0f1e2d3c4b5a6988 }) := by
  decide +kernel
theorem test_addc_last : got (exec (.addc 11) (bench wordsX)) = some (bench { wordsX with x2 := 0x0f1e2d3c4b5a6933 }) := by
  decide +kernel
theorem test_subs : got (exec .subs (bench wordsX)) = some (bench
    ⟨0xa7e7e5e777736577, 0x26446424fedbacb9, 0x56147210caddbe99, 0xa8f9c8dbb4a18487, 0x796b1b4b3d2c5b4e⟩) := by decide +kernel
/-- The lane test of section 2.3: lanes 0 to 31 hold their own number. -/
theorem test_subs_lanes : got (exec .subs (bench
      ⟨0x00000000ffff0000, 0x00000000ff00ff00, 0x00000000f0f0f0f0, 0x00000000cccccccc, 0x00000000aaaaaaaa⟩)) = some (bench
    ⟨0x0000000099c3993c, 0x000000006aa99556, 0xffffffffd22dd22d, 0x00000000f00f6996, 0x00000000cc663366⟩) := by decide +kernel
theorem test_diff : got (exec .diff (bench wordsX)) = some (bench
    ⟨0xe2227bb3f3336aa2, 0x38d5c63fe5081be2, 0xe8ad43169fda3461, 0x8b4f03d6fc3874a1, 0xd4f59acf4a041114⟩) := by decide +kernel
/-- The example of R73 that tells the two directions of rotation apart. -/
theorem test_diff_direction : got (exec .diff (bench ⟨1, 1, 1, 1, 1⟩)) = some (bench
    ⟨0x0000201000000001, 0x0000000002000009, 0x8400000000000001, 0x0040800000000001, 0x0200000000800001⟩) := by decide +kernel
theorem test_round : got (exec (.round 0) (bench wordsX)) = some (bench
    ⟨0xbc634861f5b1d50e, 0x5d9af25a5a4a4128, 0x58461ad0ec9817a4, 0x772822d566217646, 0x40075b500c6ab675⟩) := by decide +kernel
theorem test_round_last : got (exec (.round 11) (bench Words.zero)) = some (bench
    ⟨0x000964b00000004b, 0x0000000096000213, 0x53ffffffffffff90, 0x12e580000000004b, 0x0000000000000000⟩) := by decide +kernel
/-- P4: the request `PERM 6` takes `ridx` from 12 to 6 and leaves `x`. -/
theorem test_perm : got (exec (.perm 6) (bench wordsX)) = some (((bench wordsX).setRidx 6).setEvents [.perm 6]) := by
  decide +kernel
/-- R77: no request is enabled while a permutation is in progress. -/
theorem test_perm_busy : stopped (exec (.perm 12) ((bench wordsX).setRidx 11)) = some .engineBusy := by decide +kernel
/-- P4: the controller's step `ROUND 6` with `ridx` 6 → 7. -/
theorem test_round_step : got (step ((bench Words.zero).setRidx 6)) = some ((bench
    ⟨0x0012c96000000096, 0x000000012c000426, 0xa7ffffffffffff20, 0x25cb000000000096, 0⟩).setRidx 7) := by decide +kernel
/-- `PERM 6` and `PERM 12` on the all-zero state (section 2.4). -/
theorem test_permute : permute params 6 Words.zero =
      ⟨0x160c84f20faad4f1, 0x21495b1b0ae33eef, 0xe0377d04e23a914b, 0x2b23481598ffa8ea, 0x649af379ba83cd30⟩ ∧
    permute params 12 Words.zero =
      ⟨0x78ea7ae5cfebb108, 0x9b9bfb8513b560f7, 0x6937f83e03d11a50, 0x3fe53f36f2c1178c, 0x045d648e4def12c9⟩ := by
  decide +kernel
/-- The machine with `ROT_DIR = left`: the other half of R73's example. -/
theorem test_diff_left : got (exec .diff ((State.resetWith { params with rotDir := .left }).setX ⟨1, 1, 1, 1, 1⟩)) =
    some ((State.resetWith { params with rotDir := .left }).setX
      ⟨0x0000000010080001, 0x2000008000000001, 0x0000000000000043, 0x0000000000020401, 0x0000020000000081⟩) := by decide +kernel

/-! ### The codec (sections 2.1 and 2.2) -/

/-- The wires with an operand on them. -/
def wired (b : Vector Byte 8) (w : Word) : State := State.reset.setCodec { CodecPort.zero with inBytes := b, inWord := w }

theorem test_b2w : (got (exec .b2w (wired #v[0x61, 0x62, 0x63, 0x80, 0, 0, 0, 0] 0))).map (·.codec.outWord) =
    some 0x6162638000000000 := by decide +kernel
theorem test_w2b : (got (exec .w2b (wired (Vector.replicate 8 0) 0xeb1af688825d66bf))).map (·.codec.outBytes) =
    some #v[0xeb, 0x1a, 0xf6, 0x88, 0x82, 0x5d, 0x66, 0xbf] := by decide +kernel
theorem test_rotr : (got (exec (.rotr 19) (wired (Vector.replicate 8 0) 0x0123456789abcdef))).map (·.codec.outWord) =
    some 0x79bde02468acf135 := by decide +kernel
theorem test_rotr_zero : (got (exec (.rotr 0) (wired (Vector.replicate 8 0) 0x0123456789abcdef))).map (·.codec.outWord) =
    some 0x0123456789abcdef := by decide +kernel

/-! ### The command (section 2.8) and the driver (section 2.6, programs P1 and P2) -/

/-- P1, step T0: the INIT load and the request, with its events. -/
theorem test_computeTag : got (exec .computeTag (ready 0)) = some { ready 0 with
    x := ⟨0x80808c0000000080, 0x0001020304050607, 0x08090a0b0c0d0e0f, 0, 0⟩, phase := .init, ridx := 0
    events := [.perm 12, .memRead .key 8 8, .memRead .key 0 8] } := by decide +kernel
/-- Section 2.8: the key length is tested before the buffer. -/
theorem test_computeTag_rejected : got (exec .computeTag { ready 0 with keyLen := 0, tagCap := 0 }) =
    some { ready 0 with keyLen := 0, tagCap := 0, err := .invalidKeyLength } := by decide +kernel
/-- Section 2.8: a buffer of 15 bytes. -/
theorem test_computeTag_small_buffer : got (exec .computeTag { ready 0 with tagCap := 15 }) =
    some { ready 0 with tagCap := 15, err := .bufferTooSmall } := by decide +kernel
/-- Section 2.8: the command value is tested first, and from `DONE` the tag stays. -/
theorem test_illegalCommand : got (hostStep (.wrCmd 0x02) { ready 0 with keyLen := 15, phase := .done, tag := Vector.replicate 16 7 }) =
    some { ready 0 with keyLen := 15, phase := .done, tag := Vector.replicate 16 7, err := .illegalCommand } := by decide +kernel
/-- R98: nothing happens in `IDLE`. -/
theorem test_idle : got (step State.reset) = some State.reset := by decide +kernel
/-- P1, step T2. -/
theorem test_init : got (exec .init (inPhase .init 0 0 wordsI)) = some (inPhase .absorbFull 0 0 wordsI) := by decide +kernel
/-- Section 2.6: the first round after the INIT load, in three layers (step T1). -/
theorem test_init_round : (got (exec .init ((inPhase .init 0 0
      ⟨0x80808c0000000080, 0x0001020304050607, 0x08090a0b0c0d0e0f, 0, 0⟩).setRidx 0))).map (fun t => (t.x, t.ridx)) =
    some (⟨0xe99690e2b4540f4e, 0xdaddac4f93746e8f, 0x13d3d3d3d3d3d358, 0x9296e26d480e0e7e, 0x0f830284018d0c8a⟩, 1) := by
  decide +kernel
/-- P2, step T3: block 0 of the 33-byte message. -/
theorem test_absorbFull_block : (got (exec .absorbFull (inPhase .absorbFull 33 0 wordsI))).map (fun t => (t.x, t.blk, t.ridx, t.phase)) =
    some (⟨0x8775a3fd93b68970, 0x4a8f8b54d15aeb00, 0xd7eb3305dc1c6be4, 0x69202f1d2fd3d693, 0x6db5c5216d495140⟩, 1, 0, .absorbFull) := by
  decide +kernel
/-- P2, step T4: the final block `20 80 00 ..`. -/
theorem test_absorbFull_final : (got (exec .absorbFull (inPhase .absorbFull 33 1
      ⟨0xc75eea8719a9a99b, 0xf590a1a857610db0, 0x221ef577db8a0690, 0x9d4c049a65fab162, 0xad3ca986921ba170⟩))).map
        (fun t => (t.x, t.phase, t.buf[0], t.buf[1], t.buf[2])) =
    some (⟨0xe7deea8719a9a99b, 0xf590a1a857610db0, 0x221ef577db8a0690, 0x9d4c049a65fab162, 0xad3ca986921ba171⟩,
      .absorbFinal, 0x20, 0x80, 0x00) := by decide +kernel
/-- P1, step T5. -/
theorem test_absorbFinal : got (exec .absorbFinal (inPhase .absorbFinal 0 0 wordsI)) = some (inPhase .squeeze 0 0 wordsI) := by
  decide +kernel
/-- P1, step T6: the tag, and the discard. -/
theorem test_squeeze : got (exec .squeeze (inPhase .squeeze 0 0
      ⟨0xeb1af688825d66bf, 0x2d53e135f9323315, 0x201b659f0ebe1585, 0xa156f12468c53f97, 0xcff1b8bc763dd212⟩)) =
    some { inPhase .done 0 0 Words.zero with
      tag := #v[0xeb, 0x1a, 0xf6, 0x88, 0x82, 0x5d, 0x66, 0xbf, 0x2d, 0x53, 0xe1, 0x35, 0xf9, 0x32, 0x33, 0x15] } := by
  decide +kernel
/-- R97: nothing happens in `DONE` once `x` and `BUF` are zero, and the tag stays. -/
theorem test_done : got (step { inPhase .done 0 0 Words.zero with tag := Vector.replicate 16 7 }) =
    some { inPhase .done 0 0 Words.zero with tag := Vector.replicate 16 7 } := by decide +kernel
/-- Section 2.5: the padding byte at its extreme positions. -/
theorem test_padding : b2w (blockChunk (finalBlock [] 0) 0) = 0x8000000000000000 ∧ b2w (blockChunk (finalBlock [] 31) 3) = 0x80 ∧
    b2w (blockChunk (finalBlock [] 24) 3) = 0x8000000000000000 ∧ b2w (blockChunk (finalBlock [] 7) 0) = 0x80 := by decide +kernel
/-- Section 2.6: the tag of key `K1` and the message "abc", by the big-step function. -/
theorem test_tag_abc : computeTag params (counted 15) [(0, 0x61), (1, 0x62), (2, 0x63)] 3 =
    #v[0x72, 0x44, 0xec, 0xb6, 0x73, 0x4d, 0x17, 0xa0, 0x90, 0xb2, 0x07, 0x44, 0x04, 0x5f, 0x9e, 0x38] := by decide +kernel
/-- Section 2.6: the tag of key `K1` and `M_65`, two complete blocks and a tail. -/
theorem test_tag_two_blocks : computeTag params (counted 15) (counted 64) 65 =
    #v[0xe0, 0x32, 0x0d, 0x99, 0x69, 0xb3, 0x92, 0xd9, 0x4a, 0x1f, 0xf5, 0xf6, 0x1d, 0xff, 0xbf, 0x96] := by decide +kernel

/-- Section 2.7: what the source's rejected `IV_MAC` would give for `K1` and the empty message. -/
theorem test_tag_wrong_iv : computeTag { params with ivMac := 0x8080840000000080 } (counted 15) [] 0 =
    #v[0x8b, 0xfb, 0x4a, 0xab, 0xcb, 0x91, 0x67, 0x1b, 0xde, 0xe9, 0xe5, 0x6f, 0xa9, 0xa8, 0xf7, 0x44] := by decide +kernel

/-! ### Status, reset, the byte spaces -/

/-- P1 and P3: `STATUS` reads 0x15 at the end, 0x35 after a rejection from `DONE`, 0x40 after one from `IDLE`. -/
theorem test_status : status { State.reset with phase := .done } = 0x15 ∧
    status { State.reset with phase := .done, err := .invalidKeyLength } = 0x35 ∧
    status { State.reset with err := .bufferTooSmall } = 0x40 := by decide +kernel
/-- R128: the reset while busy, with the spaces kept. -/
theorem test_reset_move : got (hostStep .reset (inPhase .absorbFull 33 1 wordsI)) =
    some { State.reset with key := counted 15, msg := counted 32 } := by decide +kernel
theorem test_memory_reset_wf : State.reset.key.wf = true ∧ State.reset.msg.wf = true := by decide
/-- Writing what an unlisted index reads as removes the entry, and a write keeps the order. -/
theorem test_memory_write : Memory.write [(1, 5), (4, 6)] 4 0 = [(1, 5)] ∧ Memory.write [(1, 5), (4, 6)] 2 9 = [(1, 5), (2, 9), (4, 6)] := by
  decide
/-- The order of the host: a word placed in the state after reset is what the very next step runs. -/
theorem test_withFetchWord : got (step (State.reset.withFetchWord 6 0x3b)) = got (exec (.round 11) State.reset) ∧
    got (step (State.reset.withFetchWord 8 0x01)) = got (exec .computeTag State.reset) ∧
    (got (step (State.reset.withFetchWord 3 1))).map State.phase = some .absorbFull := by decide +kernel

/-! ### Witnesses: each statement's hypotheses met together, each clause at the ends of its range -/

theorem witness_DecodeOfEncodeGivesTheOperation :
    (Instr.addc 11).wellFormed = true ∧ (Instr.perm 1).wellFormed = true ∧ (Instr.rotr 63).wellFormed = true := by decide
theorem witness_DecodedOperationFitsItsTableRow :
    decode (.rstep 0b111011) = .ok (.round 11) ∧ (Instr.round 3).row.fits (.rstep 0b111011) = true := by decide
theorem witness_ExactlyTheReservedSelectsAreRejected :
    decode (.hostcmd 1) = .ok .computeTag ∧ decode (.phase 5) = .ok .done ∧ decode (.engreq 1) = .ok (.perm 1) ∧
    decode (.engreq 12) = .ok (.perm 12) ∧ decode (.rstep 0b001011) = .ok (.addc 11) ∧ decode (.rstep 0b011100) = .ok .subs ∧
    decode (.codec 0b10111111) = .ok (.rotr 63) ∧ decode (.phase 6) = .rejected (.reservedPhase 6) := by decide
theorem witness_RotationLaws : (1 ≤ 1 ∧ 1 ≤ 63) ∧ (1 ≤ 63 ∧ 63 ≤ 63) ∧
    rotate params (rotate params 5 (BitVec.ofNat 6 63)) (BitVec.ofNat 6 (64 - 63)) = 5 := by decide +kernel
theorem witness_RotrMovesBitsTowardBitZero : State.reset.cfg.rotDir = .right ∧
    (State.resetWith { params with rotDir := .left }).cfg.rotDir = .left := by decide
theorem witness_PermutationIsABijection : (1 ≤ 1 ∧ 1 ≤ 12) ∧ 1 ≤ 12 ∧ 12 ≤ 12 := by decide
theorem witness_AddcXorsTheRoundConstantIntoWordTwo : (0#4).toNat < 12 ∧ (11#4).toNat < 12 := by decide
/-- The five equations of the statement hold of the values they name. -/
theorem witness_SubsRunsTheWordSequence : ∃ (s : State) (a0 a1 a2 a3 a4 : Word),
    a0 = s.x.x0 ^^^ s.x.x4 ∧ a1 = s.x.x1 ∧ a2 = s.x.x2 ^^^ s.x.x1 ∧ a3 = s.x.x3 ∧ a4 = s.x.x4 ^^^ s.x.x3 ∧
    (substitute s.x).x0 = (a0 ^^^ (~~~a1 &&& a2)) ^^^ (a4 ^^^ (~~~a0 &&& a1)) := ⟨bench wordsX, _, _, _, _, _, rfl, rfl, rfl, rfl, rfl, rfl⟩
theorem witness_RoundIsTheThreeLayersInOrder : (0#4).toNat < 12 ∧ (11#4).toNat < 12 := by decide
theorem witness_RoundIndexAboveElevenIsRefused : 12 ≤ (12#4).toNat ∧ 12 ≤ (15#4).toNat := by decide
theorem witness_PermRequestSetsTheFirstRoundIndex : (bench wordsX).ridx = 12 ∧ (1 ≤ (1#4).toNat ∧ (1#4).toNat ≤ 12) ∧
    1 ≤ (12#4).toNat ∧ (12#4).toNat ≤ 12 := by decide
theorem witness_RoundCountOutOfRangeIsRefused : (0#4).toNat = 0 ∧ 13 ≤ (13#4).toNat ∧ 13 ≤ (15#4).toNat ∧
    ∃ t : State, coreStep (inPhase .absorbFull 33 0 wordsI) = .next t ∧ Event.perm 12 ∈ t.events :=
  ⟨by decide, by decide, by decide, _, rfl, by decide +kernel⟩
theorem witness_PermRunsTheLastRoundsOfTheSchedule : (bench wordsX).ridx = 12 ∧ 1 ≤ (1#4).toNat ∧ (12#4).toNat ≤ 12 ∧
    0 < (1#4).toNat ∧ 11 < (12#4).toNat := by decide
theorem witness_ReducedPermutationIsTheEndOfTheFullOne : 0 ≤ 12 ∧ 12 ≤ 12 ∧
    permute params 12 Words.zero = permute params 6 ((schedule.take (12 - 6)).foldl (fun T i => roundWords params i T) Words.zero) := by
  decide +kernel
/-- One state for every clause of the command's statements: busy; and not busy with each check failing, or none. -/
theorem witness_CommandWriteFollowsItsBranches :
    (inPhase .squeeze 0 0 wordsI).phase = .squeeze ∧ (inPhase .init 0 0 wordsI).phase = .init ∧
    (ready 0).phase = .idle ∧ (inPhase .done 0 0 wordsI).phase = .done ∧
    (0x00#8 ≠ 0x01#8 ∧ 0x02#8 ≠ 0x01#8) ∧ ({ ready 0 with keyLen := 15 } : State).keyLen ≠ 16#8 ∧
    ((ready 0).keyLen = 16#8 ∧ ({ ready 0 with tagCap := 15 } : State).tagCap.toNat < 16) ∧ 16 ≤ (ready 0).tagCap.toNat := by
  decide +kernel
/-- The hypotheses shared by the statements about an accepted command, from `IDLE` and from `DONE`. -/
theorem witness_ComputeTagStartsAComputation : (ready 33).phase = .idle ∧ (inPhase .done 33 1 wordsI).phase = .done ∧
    (ready 33).keyLen = 16#8 ∧ 16 ≤ (ready 33).tagCap.toNat ∧ (inPhase .done 33 1 wordsI).keyLen = 16#8 := by decide +kernel
theorem witness_KeyBytesEnterWordsOneAndTwo : (ready 0).phase = .idle ∧ (ready 0).keyLen = 16#8 ∧ 16 ≤ (ready 0).tagCap.toNat := by
  decide +kernel
theorem witness_RejectionWritesItsCodeAndNothingElse : (inPhase .init 0 0 wordsI).phase.busy = true ∧
    (ready 0).phase.busy = false ∧ 0x02#8 ≠ 0x01#8 ∧ ({ ready 0 with keyLen := 17 } : State).keyLen ≠ 16#8 ∧
    ({ ready 0 with tagCap := 15 } : State).tagCap.toNat < 16 := by decide +kernel
theorem witness_InitAndAbsorbFinalRunRoundsThenMoveOn :
    ((inPhase .init 0 0 wordsI).setRidx 11).ridx.val < 12 ∧ (inPhase .init 0 0 wordsI).ridx = 12 ∧
    (inPhase .init 0 0 wordsI).phase = .init ∧ ((inPhase .absorbFinal 0 0 wordsI).setRidx 0).ridx.val < 12 ∧
    (inPhase .absorbFinal 0 0 wordsI).ridx = 12 ∧ (inPhase .absorbFinal 0 0 wordsI).phase = .absorbFinal := by decide +kernel
theorem witness_AbsorbFullRunsRoundsAndAbsorbsBlocks : (inPhase .absorbFull 64 1 wordsI).phase = .absorbFull ∧
    ((inPhase .absorbFull 64 1 wordsI).setRidx 11).ridx.val < 12 ∧ (inPhase .absorbFull 64 1 wordsI).ridx = 12 ∧
    (inPhase .absorbFull 64 1 wordsI).blk < (inPhase .absorbFull 64 1 wordsI).len / 32 := by decide +kernel
/-- With no tail, and with the longest tail. -/
theorem witness_FinalBlockLoadPadsAbsorbsAndSeparates : (inPhase .absorbFull 32 1 wordsI).phase = .absorbFull ∧
    (inPhase .absorbFull 32 1 wordsI).ridx = 12 ∧ (inPhase .absorbFull 32 1 wordsI).blk = (inPhase .absorbFull 32 1 wordsI).len / 32 ∧
    (inPhase .absorbFull 31 0 wordsI).blk = (inPhase .absorbFull 31 0 wordsI).len / 32 := by decide +kernel
theorem witness_EngineOperationsFrame : (∃ t, exec .subs (bench wordsX) = .next t) ∧ (∃ t, exec .diff (bench wordsX) = .next t) ∧
    (∃ t, exec (.round 11) (bench wordsX) = .next t) ∧ (∃ t, exec (.addc 11) (bench wordsX) = .next t) ∧
    (∃ t, exec (.perm 11) (bench wordsX) = .next t) := ⟨⟨_, rfl⟩, ⟨_, rfl⟩, ⟨_, rfl⟩, ⟨_, rfl⟩, ⟨_, rfl⟩⟩
theorem witness_CodecOperationsFrame : (∃ t, exec .b2w (bench wordsX) = .next t) ∧ (∃ t, exec (.rotr 63) (bench wordsX) = .next t) ∧
    (∃ t, exec .w2b (bench wordsX) = .next t) := ⟨⟨_, rfl⟩, ⟨_, rfl⟩, ⟨_, rfl⟩⟩
theorem witness_DriverOperationsFrame : (∃ t, exec .computeTag (ready 33) = .next t) ∧
    (∃ t, exec .init (inPhase .init 33 0 wordsI) = .next t) ∧ (∃ t, exec .absorbFinal (inPhase .absorbFinal 33 1 wordsI) = .next t) ∧
    (∃ t, exec .absorbFull (inPhase .absorbFull 33 0 wordsI) = .next t) ∧ (∃ t, exec .absorbFull (inPhase .absorbFull 33 1 wordsI) = .next t) ∧
    (∃ t, exec .squeeze (inPhase .squeeze 33 1 wordsI) = .next t) ∧ (∃ t, exec .done (inPhase .done 33 1 wordsI) = .next t) ∧
    (∃ t, exec .idle (ready 33) = .next t) :=
  ⟨⟨_, rfl⟩, ⟨_, rfl⟩, ⟨_, rfl⟩, ⟨_, rfl⟩, ⟨_, rfl⟩, ⟨_, rfl⟩, ⟨_, rfl⟩, ⟨_, rfl⟩⟩
/-- A state of phase `p` with one input pending. -/
def pending (p : Phase) (i : Input) : State := (inPhase p 0 0 wordsI).setInputs [i]

/-- One state per clause of the step's statement: nothing pending; an input that waits; each kind of input taken. -/
theorem witness_StepRunsTheDecodedOperation :
    ((inPhase .init 0 0 wordsI).inputs = [] ∧ decode (fetch (inPhase .init 0 0 wordsI)) = .ok .init) ∧
    ((pending .init (.engreq 12)).inputs = [.engreq 12] ∧ Input.ready (.engreq 12) (pending .init (.engreq 12)) = false ∧
      decode (fetch (pending .init (.engreq 12))) = .ok .init) ∧
    ((pending .init .pass).inputs = [.pass] ∧ decode (fetch ((pending .init .pass).setRidx 11)) = .ok (.round 11)) ∧
    ((pending .idle (.host false (.wrCmd 1))).inputs = [.host false (.wrCmd 1)] ∧
      quiescent (pending .idle (.host false (.wrCmd 1))) = true ∧ decode (.hostcmd 1) = .ok .computeTag) ∧
    (pending .squeeze (.host true .rdStatus)).inputs = [.host true .rdStatus] ∧
    (quiescent (pending .done (.engreq 12)) = true ∧ decode (.engreq 12) = .ok (.perm 12) ∧ (0#4).toNat = 0 ∧ 13 ≤ (13#4).toNat) ∧
    ((pending .idle (.rstep 16)).inputs = [.rstep (1#2 ++ 0#4)] ∧ quiescent (pending .idle (.rstep 16)) = true ∧
      decode (.rstep (1#2 ++ 0#4)) = .ok .subs ∧ (pending .idle (.rstep 12)).inputs = [.rstep (0#2 ++ 12#4)] ∧ 12 ≤ (12#4).toNat) ∧
    ((pending .idle (.codec 0)).inputs = [.codec (0#2 ++ 0#6)] ∧ quiescent (pending .idle (.codec 0)) = true ∧
      decode (.codec (0#2 ++ 0#6)) = .ok .b2w ∧ (pending .idle (.codec 0xc1)).inputs = [.codec (3#2 ++ 1#6)]) ∧
    (pending .init (.driveCodec (Vector.replicate 8 1) 2)).inputs = [.driveCodec (Vector.replicate 8 1) 2] ∧
    ((pending .init .pass).setRidx 11).ridx.val < 12 ∧ (pending .init .pass).ridx = 12 := by decide +kernel
theorem witness_PlacedWordRunsNext : decodeTableWord 6 0x3b = some (.round 11) ∧ decodeTableWord 3 5 = some .done ∧
    decodeTableWord 4 1 = some (.perm 1) ∧ decodeTableWord 8 0x40 = some .w2b ∧ decodeTableWord 8 1 = some .computeTag := by decide
/-- The hypotheses of the three statements about a whole computation. -/
theorem witness_ComputationEndsInDoneWithTheTag : (ready 65).phase = .idle ∧ (ready 65).keyLen = 16#8 ∧ 16 ≤ (ready 65).tagCap.toNat ∧
    0 < 12 * ((ready 65).msgLen / 32 + 2) + (ready 65).msgLen / 32 + 4 := by decide +kernel
theorem witness_ComputationReadsAndRequests : (ready 65).phase = .idle ∧ (ready 65).keyLen = 16#8 ∧ 16 ≤ (ready 65).tagCap.toNat := by
  decide +kernel
theorem witness_EachInputByteIsReadOnceInOrder : (inPhase .done 33 1 wordsI).phase = .done ∧ (inPhase .done 33 1 wordsI).keyLen = 16#8 ∧
    16 ≤ (inPhase .done 33 1 wordsI).tagCap.toNat := by decide +kernel
/-- Two messages that differ beyond the length alone, and two keys that differ beyond the 16 bytes. -/
theorem witness_TagDependsOnKeyAndMessageBytesAlone : ∃ (key key' msg msg' : Memory) (len : Nat), key ≠ key' ∧ msg ≠ msg' ∧
    (∀ a : Nat, a < 16 → key.read a = key'.read a) ∧ (∀ a : Nat, a < len → msg.read a = msg'.read a) :=
  ⟨[], [(16, 1)], [], [(3, 7)], 3, by decide, by decide, by decide, by decide⟩
/-- The empty tail and the longest, and two tails of one length. -/
theorem witness_DifferentTailsGiveDifferentStates : 0 ≤ 31 ∧ 31 ≤ 31 ∧
    (Vector.replicate 0 (0 : Byte)).toList ≠ (Vector.replicate 31 (0 : Byte)).toList ∧
    (Vector.replicate 31 (1 : Byte)).toList ≠ (Vector.replicate 31 (0 : Byte)).toList := by decide
theorem witness_BusyCoreReachesDone : Inv (inPhase .absorbFull 33 1 wordsI) ∧ (inPhase .absorbFull 33 1 wordsI).phase.busy = true :=
  ⟨⟨by decide +kernel, by decide +kernel, by decide +kernel, by decide +kernel⟩, by decide +kernel⟩
theorem witness_StepKeepsTheInvariant : Inv (inPhase .absorbFull 33 1 wordsI) ∧ ∃ t, step (inPhase .absorbFull 33 1 wordsI) = .next t :=
  ⟨⟨by decide +kernel, by decide +kernel, by decide +kernel, by decide +kernel⟩, _, rfl⟩
/-- A busy state with a command pending, and one about to leave `SQUEEZE`. -/
theorem witness_NothingIsLeftWhenNotBusy : HostOnlyInv ((inPhase .squeeze 0 0 wordsI).setInputs [.host false (.wrCmd 1)]) ∧
    ∃ t, step ((inPhase .squeeze 0 0 wordsI).setInputs [.host false (.wrCmd 1)]) = .next t :=
  ⟨⟨by decide +kernel, fun h => absurd h (by decide +kernel)⟩, _, rfl⟩
/-- Two states that differ in `x`, `ridx`, `blk`, `LEN` and both spaces. -/
theorem witness_HostReadsSeeNoPrivateState : HostMove.rdStatus.isRead = true ∧ (HostMove.rdTag 15).isRead = true ∧
    ∃ s t : State, s ≠ t ∧ SameView s t :=
  ⟨rfl, rfl, inPhase .init 0 0 wordsI, { (inPhase .init 0 0 wordsX).setRidx 3 with blk := 4, len := 9, key := [], msg := [(2, 2)] },
    by decide +kernel, rfl, rfl, rfl, rfl, rfl, rfl⟩
theorem witness_HostMovesWriteNoPrivateState : (∀ v : BitVec 8, HostMove.wrMsg 3 7 ≠ .wrCmd v) ∧ HostMove.wrMsg 3 7 ≠ .reset ∧
    ∃ t, hostStep (.wrMsg 3 7) State.reset = .next t := ⟨fun _ h => (by cases h), by decide, _, rfl⟩
theorem witness_HostByteWriteStoresThatByte : Inv (ready 33) ∧ (ready 33).phase = .idle ∧
    Inv ((inPhase .init 33 0 wordsI)) ∧ (inPhase .init 33 0 wordsI).phase.busy = true :=
  ⟨⟨by decide +kernel, by decide +kernel, by decide +kernel, by decide +kernel⟩, by decide +kernel,
    ⟨by decide +kernel, by decide +kernel, by decide +kernel, by decide +kernel⟩, by decide +kernel⟩
theorem witness_CoreStepIgnoresWhatTheHostMayWriteWhileBusy : ∃ t, coreStep (inPhase .absorbFull 33 0 wordsI) = .next t := ⟨_, rfl⟩
theorem witness_PhaseChangesFollowTheGraph : ∃ t, step (inPhase .squeeze 0 0 wordsI) = .next t ∧ t.phase = .done := ⟨_, rfl, rfl⟩
/-- Two states with different words, keys and messages. -/
theorem witness_ControlDependsOnNoDataValue : ∃ s t : State, s ≠ t ∧ SameControl s t :=
  ⟨inPhase .init 33 0 wordsI, { inPhase .init 33 0 wordsX with key := [], msg := [] }, by decide +kernel, rfl, rfl, rfl, rfl⟩
theorem witness_CapacityWordIsTouchedOnlyAsStated : (inPhase .absorbFull 0 0 wordsI).inputs.all Input.fromHost = true ∧
    ∃ t, step (inPhase .absorbFull 0 0 wordsI) = .next t ∧ t.x.x4 ≠ wordsI.x4 := ⟨rfl, _, rfl, by decide +kernel⟩
theorem witness_TagIsWrittenOnlyBySqueezeOrCleared : ∃ t, step (inPhase .squeeze 0 0 wordsI) = .next t ∧
    t.tag ≠ (inPhase .squeeze 0 0 wordsI).tag := ⟨_, rfl, by decide +kernel⟩
/-- A rejected command changes `ERR`, an accepted one `LEN`. -/
theorem witness_ErrAndLenChangeOnlyAtCommandsAndReset :
    (∃ t, step ((ready 33).setInputs [.host true (.wrCmd 2)]) = .next t ∧ t.err ≠ (ready 33).err) ∧
    ∃ t, step ((ready 33).setInputs [.host true (.wrCmd 1)]) = .next t ∧ t.len ≠ (ready 33).len :=
  ⟨⟨_, rfl, by decide +kernel⟩, _, rfl, by decide +kernel⟩
theorem witness_ParametersAreNeverChanged : (∃ t, step (inPhase .absorbFull 33 0 wordsI) = .next t) ∧
    HostMove.rdStatus.isRead = true ∧ { params with rotDir := .left } ≠ State.reset.cfg := ⟨⟨_, rfl⟩, rfl, by decide +kernel⟩
theorem witness_InstancesAreIndependent : (0 : Nat) ≠ 1 ∧
    ∃ tt, Instances.stepAt ⟨inPhase .squeeze 0 0 wordsI, [ready 33]⟩ 0 = .next tt ∧ ∃ uu, Instances.stepAt tt 1 = .next uu :=
  ⟨by decide, _, rfl, _, rfl⟩

end Sys2Proof.Tests
end

section
/-! PROOFS of the statements about the encodings (30_encoding.md). -/

namespace Sys2Proof.Machine

/-! ### The codec's bytes -/

/-- Byte `k` of `W2B(w)` as a field of the word (R84). -/
theorem w2b_getElem (w : Word) (k : Nat) (hk : k < 8) : (w2b w)[k] = w.extractLsb' (56 - 8 * k) 8 := by
  simp [w2b]

/-- `W2B` undoes `B2W` (R85): bit `j` of byte `k` goes to bit `56 − 8k + j` and back. -/
theorem w2b_b2w (b : Vector Byte 8) : w2b (b2w b) = b := by
  ext k hk j hj
  have hbyte : 7 - (56 - 8 * k + j) / 8 = k := by omega
  have hbit : (56 - 8 * k + j) % 8 = j := by omega
  simp only [← BitVec.getLsbD_eq_getElem]
  rw [w2b_getLsbD _ k j hk hj, b2w_getLsbD b _ (by omega)]
  simp only [hbyte, hbit]

/-- Bits `63 − 8k : 56 − 8k` of `B2W(b)` are byte `k` (R83). -/
theorem b2w_extractLsb' (b : Vector Byte 8) (k : Nat) (hk : k < 8) : (b2w b).extractLsb' (56 - 8 * k) 8 = b[k] := by
  rw [← w2b_getElem _ k hk]
  simp only [w2b_b2w]

/-! ### The accepted command -/

/-- The core is not busy in `IDLE` and `DONE` alone (R26). -/
theorem busy_eq_false_iff (p : Phase) : p.busy = false ↔ p = .idle ∨ p = .done := by
  cases p <;> decide

/-- The last branch of R91: not busy and both lengths legal, the command is accepted. -/
theorem exec_computeTag_of_accepted {s : State} (hp : s.phase = .idle ∨ s.phase = .done) (hk : s.keyLen = 16#8)
    (ht : 16 ≤ s.tagCap.toNat) : exec .computeTag s = .next (acceptCommand s) := by
  have hb : s.phase.busy = false := (busy_eq_false_iff s.phase).mpr hp
  show execComputeTag s = _
  simp [execComputeTag, hb, hk, Nat.not_lt.mpr ht]

/-- Settles O25: the INIT load puts `B2W` of the two key halves into words 1 and 2, and a byte of `B2W` is the operand's. -/
theorem keyBytesEnterWordsOneAndTwo : Obligations.KeyBytesEnterWordsOneAndTwo := by
  intro s hp hk ht
  refine ⟨acceptCommand s, exec_computeTag_of_accepted hp hk ht, fun k => ?_⟩
  simp only [acceptCommand_eq, initWords, State.byteAt, State.space]
  constructor
  · rw [b2w_extractLsb' _ _ k.isLt, memRead_getElem, Nat.zero_add]
  · rw [b2w_extractLsb' _ _ k.isLt, memRead_getElem]

end Sys2Proof.Machine
end

section
/-! PROOFS of the statements about the driver (42_mac_driver.md): the branches of a write to `CMD` (R91). -/

namespace Sys2Proof.Machine

/-- The core is busy in the four phases of a computation (R26). -/
theorem busy_eq_true_iff (p : Phase) :
    p.busy = true ↔ p = .init ∨ p = .absorbFull ∨ p = .absorbFinal ∨ p = .squeeze := by
  cases p <;> decide

/-! ### The branches of `COMPUTE_TAG`, in their order -/

/-- While busy the command has no effect (R119). -/
theorem exec_computeTag_of_busy {s : State} (hb : s.phase.busy = true) : exec .computeTag s = .next s := by
  show execComputeTag s = _
  simp only [execComputeTag, hb, if_true]

/-- Not busy, the key length is checked first (R114, R118). -/
theorem exec_computeTag_of_keyLen_ne {s : State} (hb : s.phase.busy = false) (hk : s.keyLen ≠ 16#8) :
    exec .computeTag s = .next (s.setErr .invalidKeyLength) := by
  show execComputeTag s = _
  simp [execComputeTag, hb, hk, raise]

/-- With a legal key length, the tag's room is checked next (R115, R118). -/
theorem exec_computeTag_of_tagCap_lt {s : State} (hb : s.phase.busy = false) (hk : s.keyLen = 16#8)
    (ht : s.tagCap.toNat < 16) : exec .computeTag s = .next (s.setErr .bufferTooSmall) := by
  show execComputeTag s = _
  simp [execComputeTag, hb, hk, ht, raise]

/-! ### The branches of the write -/

/-- The value `0x01` runs `COMPUTE_TAG` (R61). -/
theorem hostStep_wrCmd_computeTag (s : State) : hostStep (.wrCmd 0x01#8) s = exec .computeTag s := rfl

/-- Every other value is a reserved command (R61, R116). -/
theorem hostStep_wrCmd_reserved {v : BitVec 8} (hv : v ≠ 0x01#8) (s : State) :
    hostStep (.wrCmd v) s = .next (reservedCommand s) := by
  rcases writeCmd_cases v s with ⟨h, -⟩ | ⟨-, h⟩
  · exact absurd h hv
  · exact h

/-- While busy a write to `CMD` of any value has no effect (R119). -/
theorem hostStep_wrCmd_of_busy (v : BitVec 8) {s : State} (hb : s.phase.busy = true) :
    hostStep (.wrCmd v) s = .next s := by
  by_cases hv : v = 0x01#8
  · rw [hv, hostStep_wrCmd_computeTag, exec_computeTag_of_busy hb]
  · rw [hostStep_wrCmd_reserved hv, reservedCommand, if_pos hb]

/-- Not busy, a reserved value is rejected before any other check (R116, R118). -/
theorem hostStep_wrCmd_of_ne {v : BitVec 8} {s : State} (hb : s.phase.busy = false) (hv : v ≠ 0x01#8) :
    hostStep (.wrCmd v) s = .next (s.setErr .illegalCommand) := by
  rw [hostStep_wrCmd_reserved hv, reservedCommand, if_neg (by simp [hb]), raise]

/-- Settles O23: busy first, then the command value, the key length and the tag's room; past all four the written
state is `acceptCommand s`, whose fields `acceptCommand_eq` lists. -/
theorem commandWriteFollowsItsBranches : Obligations.CommandWriteFollowsItsBranches := by
  intro s v
  refine ⟨fun hbusy => hostStep_wrCmd_of_busy v ((busy_eq_true_iff s.phase).mpr hbusy), fun hp => ?_⟩
  have hb : s.phase.busy = false := (busy_eq_false_iff s.phase).mpr hp
  refine ⟨hostStep_wrCmd_of_ne hb, ?_, ?_, ?_⟩
  · rintro rfl hk
    rw [hostStep_wrCmd_computeTag, exec_computeTag_of_keyLen_ne hb hk]
  · rintro rfl hk ht
    rw [hostStep_wrCmd_computeTag, exec_computeTag_of_tagCap_lt hb hk ht]
  · rintro rfl hk ht
    rw [hostStep_wrCmd_computeTag, exec_computeTag_of_accepted hp hk ht]
    refine ⟨acceptCommand s, rfl, ?_⟩
    rw [acceptCommand_eq]
    exact ⟨rfl, rfl, rfl, fun k => Vector.getElem_replicate k.isLt, rfl, rfl, rfl⟩

end Sys2Proof.Machine
end

section
/-! PROOFS of the statements about rejected commands (60_exceptions.md). -/

namespace Sys2Proof.Machine

/-- The error a rejected write of `v` to `CMD` raises, by the priority of R118: the command value, the key length, and
then the tag's room, which is all that is left. -/
def rejectionErr (v : BitVec 8) (s : State) : ErrCode :=
  if v ≠ 0x01#8 then .illegalCommand else if s.keyLen ≠ 16#8 then .invalidKeyLength else .bufferTooSmall

/-- The codes of the three errors (R114, R115, R116). -/
theorem rejectionErr_code (v : BitVec 8) (s : State) :
    (rejectionErr v s).code = if v ≠ 0x01#8 then 3 else if s.keyLen ≠ 16#8 then 1 else 2 := by
  rw [rejectionErr, apply_ite ErrCode.code, apply_ite ErrCode.code]
  rfl

/-- Not busy, a write to `CMD` that fails a check writes its error and is otherwise the same state (R117). -/
theorem hostStep_wrCmd_of_rejected {v : BitVec 8} {s : State} (hb : s.phase.busy = false)
    (hr : v ≠ 0x01#8 ∨ s.keyLen ≠ 16#8 ∨ s.tagCap.toNat < 16) :
    hostStep (.wrCmd v) s = .next (s.setErr (rejectionErr v s)) := by
  by_cases hv : v = 0x01#8
  · subst hv
    by_cases hk : s.keyLen = 16#8
    · have ht : s.tagCap.toNat < 16 := by simpa [hk] using hr
      rw [hostStep_wrCmd_computeTag, exec_computeTag_of_tagCap_lt hb hk ht]
      simp [rejectionErr, hk]
    · rw [hostStep_wrCmd_computeTag, exec_computeTag_of_keyLen_ne hb hk]
      simp [rejectionErr, hk]
  · rw [hostStep_wrCmd_of_ne hb hv]
    simp [rejectionErr, hv]

/-- Both byte spaces read the same whatever `ERR` holds (R117). -/
theorem sameBytes_setErr (s : State) (e : ErrCode) : SameBytes s (s.setErr e) := fun sp _ => by cases sp <;> rfl

/-- Whether the core has a step does not depend on `ERR` (R117). -/
@[simp] theorem quiescent_setErr (s : State) (e : ErrCode) : quiescent (s.setErr e) = quiescent s := rfl

/-- Settles O26: while busy the write has no effect; otherwise the state after a rejection is
`s.setErr (rejectionErr v s)`, of which every other field is that of `s`. -/
theorem rejectionWritesItsCodeAndNothingElse : Obligations.RejectionWritesItsCodeAndNothingElse := by
  intro s v
  refine ⟨hostStep_wrCmd_of_busy v, fun hb hr => ⟨_, hostStep_wrCmd_of_rejected hb hr, rejectionErr_code v s, ?_⟩⟩
  simp [sameBytes_setErr]

end Sys2Proof.Machine
end

section
/-! PROOFS of the statement about the global reset (70_reset_and_hazards.md). -/

namespace Sys2Proof.Machine

/-- The reset lands on the state after power-up but for what it keeps: the parameters, the two byte spaces and what is
the outside's own. No other reset value depends on the parameters (R31, R128). -/
theorem hardReset_eq (s : State) : hardReset s =
    { State.reset with
      cfg := s.cfg, key := s.key, msg := s.msg
      codec := s.codec, inputs := s.inputs, reads := s.reads, events := s.events } := rfl

/-- Both byte spaces are the host's and read the same after the reset (R128). -/
theorem sameBytes_hardReset (s : State) : SameBytes s (hardReset s) := fun sp _ => by cases sp <;> rfl

/-- Settles O47: whatever the phase, the move answers `hardReset s`; `hardReset_eq` gives its registers and
`sameBytes_hardReset` its bytes. -/
theorem globalResetFromAnyState : Obligations.GlobalResetFromAnyState := by
  intro s
  refine ⟨hardReset s, rfl, ?_⟩
  have hbytes : SameBytes s (hardReset s) := sameBytes_hardReset s
  rw [hardReset_eq] at hbytes ⊢
  exact ⟨rfl, rfl, rfl, rfl, rfl, rfl, rfl, rfl, rfl, rfl, rfl, rfl, hbytes⟩

end Sys2Proof.Machine
end

section
/-! PROOFS of the statements about the decoder and the encoder (30_encoding.md). -/

namespace Sys2Proof.Machine

/-! ### The fields of a select word -/

/-- The layer field of an `RSTEP` word (R59). -/
@[simp] theorem rstep_layer (l : BitVec 2) (i : BitVec 4) : (l ++ i).extractLsb' 4 2 = l :=
  BitVec.extractLsb'_append_eq_left

/-- The index field of an `RSTEP` word (R59). -/
@[simp] theorem rstep_index (l : BitVec 2) (i : BitVec 4) : (l ++ i).extractLsb' 0 4 = i :=
  BitVec.extractLsb'_append_eq_right

/-- The function field of a `CODEC` word (R59). -/
@[simp] theorem codec_function (f : BitVec 2) (n : BitVec 6) : (f ++ n).extractLsb' 6 2 = f :=
  BitVec.extractLsb'_append_eq_left

/-- The amount field of a `CODEC` word (R59). -/
@[simp] theorem codec_amount (f : BitVec 2) (n : BitVec 6) : (f ++ n).extractLsb' 0 6 = n :=
  BitVec.extractLsb'_append_eq_right

/-- The bits of an `RSTEP` word that its table rows look at are the layer field (R60). -/
theorem rstep_masked (c : BitVec 6) : c.toNat &&& 0x30 = 16 * (c.extractLsb' 4 2).toNat := by
  revert c; decide

/-- The bits of a `CODEC` word that its table rows look at are the function field (R60). -/
theorem codec_masked (c : BitVec 8) : c.toNat &&& 0xc0 = 64 * (c.extractLsb' 6 2).toNat := by
  revert c; decide

/-! ### The decoder, one equation per operation with an operand -/

theorem decode_rstep_addc {i : BitVec 4} (h : i.toNat ≤ 11) : decode (.rstep (0#2 ++ i)) = .ok (.addc i) := by
  simp [decode, decodeRstep, h]

theorem decode_rstep_subs (i : BitVec 4) : decode (.rstep (1#2 ++ i)) = .ok .subs := by
  simp [decode, decodeRstep]

theorem decode_rstep_diff (i : BitVec 4) : decode (.rstep (2#2 ++ i)) = .ok .diff := by
  simp [decode, decodeRstep]

theorem decode_rstep_round {i : BitVec 4} (h : i.toNat ≤ 11) : decode (.rstep (3#2 ++ i)) = .ok (.round i) := by
  simp [decode, decodeRstep, h]

/-- The two layers with an index reject the indices above 11 (R64). -/
theorem decode_rstep_rejected {l : BitVec 2} {i : BitVec 4} (hl : l = 0#2 ∨ l = 3#2) (hi : 12 ≤ i.toNat) :
    decode (.rstep (l ++ i)) = .rejected (.roundIndexOutOfRange i) := by
  have h : ¬ i.toNat ≤ 11 := by omega
  rcases hl with rfl | rfl <;> simp [decode, decodeRstep, h]

theorem decode_engreq {r : BitVec 4} (h : 1 ≤ r.toNat ∧ r.toNat ≤ 12) : decode (.engreq r) = .ok (.perm r) := by
  simp [decode, decodeEngreq, h]

/-- A round count outside 1..12 is rejected (R64). -/
theorem decode_engreq_rejected {r : BitVec 4} (h : r.toNat = 0 ∨ 13 ≤ r.toNat) :
    decode (.engreq r) = .rejected (.roundCountOutOfRange r) := by
  have h' : ¬ (1 ≤ r.toNat ∧ r.toNat ≤ 12) := by omega
  simp only [decode, decodeEngreq, if_neg h']

theorem decode_codec_b2w (n : BitVec 6) : decode (.codec (0#2 ++ n)) = .ok .b2w := by
  simp [decode, decodeCodec]

theorem decode_codec_w2b (n : BitVec 6) : decode (.codec (1#2 ++ n)) = .ok .w2b := by
  simp [decode, decodeCodec]

theorem decode_codec_rotr (n : BitVec 6) : decode (.codec (2#2 ++ n)) = .ok (.rotr n) := by
  simp [decode, decodeCodec]

/-- The codec has no fourth function (R64). -/
theorem decode_codec_rejected (n : BitVec 6) : decode (.codec (3#2 ++ n)) = .rejected (.reservedCodec n) := by
  simp [decode, decodeCodec]

/-- Settles O1: by operation; the operand comes back from its field, and its legality passes the decoder's range check. -/
theorem decodeOfEncodeGivesTheOperation : Obligations.DecodeOfEncodeGivesTheOperation := by
  intro i hi
  cases i with
  | addc i => exact decode_rstep_addc (by simpa [Instr.wellFormed] using hi)
  | round i => exact decode_rstep_round (by simpa [Instr.wellFormed] using hi)
  | perm r => exact decode_engreq (by simpa [Instr.wellFormed] using hi)
  | rotr n => exact decode_codec_rotr n
  | subs => rfl
  | diff => rfl
  | b2w => rfl
  | w2b => rfl
  | computeTag => rfl
  | idle => rfl
  | init => rfl
  | absorbFull => rfl
  | absorbFinal => rfl
  | squeeze => rfl
  | done => rfl

/-! ### The rows of the opcode table -/

/-- The bits that the rows of one format look at: every row of a format looks at the same ones (R60). -/
def formatMask : Format → Nat
  | .hostcmd => 0xff
  | .phase => 0x7
  | .engreq => 0x0
  | .rstep => 0x30
  | .codec => 0xc0

/-- The width of a format's words (R59). -/
def formatWidth : Format → Nat
  | .hostcmd => 8
  | .phase => 3
  | .engreq => 4
  | .rstep => 6
  | .codec => 8

/-- A row is its format and its pattern. -/
theorem row_eq (i : Instr) :
    i.row = ⟨i.row.format, formatWidth i.row.format, formatMask i.row.format, i.row.pattern⟩ := by
  cases i <;> rfl

theorem row_fits_iff (i : Instr) (w : Select) :
    i.row.fits w = true ↔ w.format = i.row.format ∧ w.bits &&& formatMask i.row.format = i.row.pattern := by
  rw [row_eq i]
  simp [Row.fits]

/-- A word fits one row at most: its format gives the mask, and its masked bits the pattern. -/
theorem row_eq_of_fits {i j : Instr} {w : Select} (hi : i.row.fits w = true) (hj : j.row.fits w = true) :
    j.row = i.row := by
  obtain ⟨hif, hip⟩ := (row_fits_iff i w).1 hi
  obtain ⟨hjf, hjp⟩ := (row_fits_iff j w).1 hj
  rw [row_eq i, row_eq j, ← hip, ← hjp, ← hif, ← hjf]

/-! ### What a decoded word is, format by format -/

/-- Operands legal and the word of the operation's own row. -/
def DecodesWithinRow (w : Select) (i : Instr) : Prop := i.wellFormed = true ∧ i.row.fits w = true

theorem decodeHostcmd_withinRow {op : BitVec 8} {i : Instr} (h : decodeHostcmd op = .ok i) :
    DecodesWithinRow (.hostcmd op) i := by
  unfold decodeHostcmd at h
  split_ifs at h with ho
  cases h
  subst ho
  exact ⟨rfl, rfl⟩

theorem decodePhase_withinRow {ph : BitVec 3} {i : Instr} (h : decodePhase ph = .ok i) :
    DecodesWithinRow (.phase ph) i := by
  unfold decodePhase at h
  split_ifs at h <;> cases h <;> subst ph <;> exact ⟨rfl, rfl⟩

theorem decodeEngreq_withinRow {r : BitVec 4} {i : Instr} (h : decodeEngreq r = .ok i) :
    DecodesWithinRow (.engreq r) i := by
  unfold decodeEngreq at h
  split_ifs at h with hr
  cases h
  exact ⟨decide_eq_true hr, (row_fits_iff _ _).2 ⟨rfl, Nat.and_zero _⟩⟩

theorem decodeRstep_withinRow {c : BitVec 6} {i : Instr} (h : decodeRstep c = .ok i) :
    DecodesWithinRow (.rstep c) i := by
  have hfits (j : Instr) (hf : j.row.format = .rstep) (hp : 16 * (c.extractLsb' 4 2).toNat = j.row.pattern) :
      j.row.fits (.rstep c) = true := by
    rw [row_fits_iff, hf]
    exact ⟨rfl, (rstep_masked c).trans hp⟩
  have hlast (h0 : c.extractLsb' 4 2 ≠ 0#2) (h1 : c.extractLsb' 4 2 ≠ 1#2) (h2 : c.extractLsb' 4 2 ≠ 2#2) :
      c.extractLsb' 4 2 = 3#2 := by
    revert h0 h1 h2
    generalize c.extractLsb' 4 2 = l
    revert l
    decide
  unfold decodeRstep at h
  dsimp only at h
  split_ifs at h with h0 hi h1 h2 hi <;> cases h
  · exact ⟨decide_eq_true hi, hfits _ rfl (by rw [h0]; rfl)⟩
  · exact ⟨rfl, hfits _ rfl (by rw [h1]; rfl)⟩
  · exact ⟨rfl, hfits _ rfl (by rw [h2]; rfl)⟩
  · exact ⟨decide_eq_true hi, hfits _ rfl (by rw [hlast h0 h1 h2]; rfl)⟩

theorem decodeCodec_withinRow {c : BitVec 8} {i : Instr} (h : decodeCodec c = .ok i) :
    DecodesWithinRow (.codec c) i := by
  have hfits (j : Instr) (hf : j.row.format = .codec) (hp : 64 * (c.extractLsb' 6 2).toNat = j.row.pattern) :
      j.row.fits (.codec c) = true := by
    rw [row_fits_iff, hf]
    exact ⟨rfl, (codec_masked c).trans hp⟩
  unfold decodeCodec at h
  dsimp only at h
  split_ifs at h with h0 h1 h2 <;> cases h
  · exact ⟨rfl, hfits _ rfl (by rw [h0]; rfl)⟩
  · exact ⟨rfl, hfits _ rfl (by rw [h1]; rfl)⟩
  · exact ⟨rfl, hfits _ rfl (by rw [h2]; rfl)⟩

theorem decode_withinRow {w : Select} {i : Instr} (h : decode w = .ok i) : DecodesWithinRow w i := by
  cases w with
  | hostcmd op => exact decodeHostcmd_withinRow h
  | phase ph => exact decodePhase_withinRow h
  | engreq r => exact decodeEngreq_withinRow h
  | rstep c => exact decodeRstep_withinRow h
  | codec c => exact decodeCodec_withinRow h

/-- Settles O2: the decoder's branch gives the operation's own row, and two rows that fit one word are equal. -/
theorem decodedOperationFitsItsTableRow : Obligations.DecodedOperationFitsItsTableRow := by
  intro w i h
  obtain ⟨hwf, hfits⟩ := decode_withinRow h
  exact ⟨hwf, hfits, fun j hj => row_eq_of_fits hfits hj⟩

/-! ### The reserved words, format by format -/

theorem decodePhase_rejected_iff (ph : BitVec 3) :
    (∃ e, decodePhase ph = .rejected e) ↔ ph = 6#3 ∨ ph = 7#3 := by
  have hcodes : (ph ≠ 0#3 ∧ ph ≠ 1#3 ∧ ph ≠ 2#3 ∧ ph ≠ 3#3 ∧ ph ≠ 4#3 ∧ ph ≠ 5#3) ↔ ph = 6#3 ∨ ph = 7#3 := by
    revert ph; decide
  rw [← hcodes]
  unfold decodePhase
  split_ifs <;> simp_all

theorem decodeEngreq_rejected_iff (r : BitVec 4) :
    (∃ e, decodeEngreq r = .rejected e) ↔ r = 0#4 ∨ r = 13#4 ∨ r = 14#4 ∨ r = 15#4 := by
  have hcounts : ¬ (1 ≤ r.toNat ∧ r.toNat ≤ 12) ↔ r = 0#4 ∨ r = 13#4 ∨ r = 14#4 ∨ r = 15#4 := by
    revert r; decide
  rw [← hcounts]
  unfold decodeEngreq
  split_ifs with h <;> simp [h]

theorem decodeRstep_rejected_iff (c : BitVec 6) :
    (∃ e, decodeRstep c = .rejected e) ↔
      (c.extractLsb' 4 2 = 0#2 ∨ c.extractLsb' 4 2 = 3#2) ∧ 12 ≤ (c.extractLsb' 0 4).toNat := by
  unfold decodeRstep
  generalize c.extractLsb' 4 2 = l
  generalize c.extractLsb' 0 4 = i
  have hlayers : l = 0#2 ∨ l = 1#2 ∨ l = 2#2 ∨ l = 3#2 := by revert l; decide
  rcases hlayers with rfl | rfl | rfl | rfl <;> by_cases hi : i.toNat ≤ 11 <;> simp [hi] <;> omega

theorem decodeCodec_rejected_iff (c : BitVec 8) :
    (∃ e, decodeCodec c = .rejected e) ↔ c.extractLsb' 6 2 = 3#2 := by
  unfold decodeCodec
  generalize c.extractLsb' 6 2 = f
  have hfunctions : f = 0#2 ∨ f = 1#2 ∨ f = 2#2 ∨ f = 3#2 := by revert f; decide
  rcases hfunctions with rfl | rfl | rfl | rfl <;> simp

/-- Settles O3: one equivalence per format. -/
theorem exactlyTheReservedSelectsAreRejected : Obligations.ExactlyTheReservedSelectsAreRejected := by
  intro w
  cases w with
  | hostcmd op =>
    show (∃ e, decodeHostcmd op = .rejected e) ↔ op ≠ 0x01#8
    unfold decodeHostcmd
    split_ifs with h <;> simp [h]
  | phase ph => exact decodePhase_rejected_iff ph
  | engreq r => exact decodeEngreq_rejected_iff r
  | rstep c => exact decodeRstep_rejected_iff c
  | codec c => exact decodeCodec_rejected_iff c

/-- Settles O4: the words are literal but for their don't-care bits, which the fields' equations leave free. -/
theorem selectWordsDecodeAsTheTableWritesThem : Obligations.SelectWordsDecodeAsTheTableWritesThem :=
  ⟨rfl, rfl, fun x => ⟨decode_rstep_subs x, decode_rstep_diff x⟩, rfl,
    fun x => ⟨decode_codec_b2w x, decode_codec_w2b x⟩, rfl, rfl, rfl, rfl, rfl, rfl, rfl, rfl⟩

end Sys2Proof.Machine
end

section
/-! PROOFS: what one step can do, as one case per cause; then the invariants that every step keeps (10_state.md,
42_mac_driver.md, 70_reset_and_hazards.md). -/

namespace Sys2Proof.Machine

/-! ### What a core step does -/

/-- The core's step, one case per row of R100: `t` is the state it answers. -/
inductive CoreEffect (s : State) : State → Prop where
  | round (h : s.ridx.val < 12) : CoreEffect s { s with
      x := roundWords s.cfg ⟨s.ridx.val, h⟩ s.x, ridx := ⟨s.ridx.val + 1, Nat.succ_lt_succ h⟩ }
  | stay (hr : s.ridx = 12) (hp : s.phase = .idle) : CoreEffect s s
  | leaveInit (hr : s.ridx = 12) (hp : s.phase = .init) : CoreEffect s (s.setPhase .absorbFull)
  | fullBlock (hr : s.ridx = 12) (hp : s.phase = .absorbFull) (hb : s.blk < numBlocks s.len) :
      CoreEffect s (loadFullBlock s)
  | finalBlock (hr : s.ridx = 12) (hp : s.phase = .absorbFull) (hb : ¬ s.blk < numBlocks s.len) :
      CoreEffect s (loadFinalBlock s)
  | leaveFinal (hr : s.ridx = 12) (hp : s.phase = .absorbFinal) : CoreEffect s (s.setPhase .squeeze)
  | squeeze (hr : s.ridx = 12) (hp : s.phase = .squeeze) : CoreEffect s { s with
      tag := tagBytes s.x.x0 s.x.x1, x := Words.zero, buf := Vector.replicate 32 0, phase := .done }
  | discard (hr : s.ridx = 12) (hp : s.phase = .done) : CoreEffect s (discardState s)

theorem coreStep_effect {s t : State} (hs : coreStep s = .next t) : CoreEffect s t := by
  rcases coreStep_cases s with ⟨h, hn⟩ | ⟨hr, ⟨hp, hn⟩ | ⟨hp, hn⟩ | ⟨hp, hb, hn⟩ | ⟨hp, hb, hn⟩ | ⟨hp, hn⟩ | ⟨hp, hn⟩ |
    ⟨hp, hn⟩⟩ <;> rw [hn] at hs <;> cases hs
  · rw [roundStep_eq h]
    exact .round h
  · exact .stay hr hp
  · exact .leaveInit hr hp
  · exact .fullBlock hr hp hb
  · exact .finalBlock hr hp hb
  · exact .leaveFinal hr hp
  · rw [writeTag_eq, discardState_eq]
    exact .squeeze hr hp
  · exact .discard hr hp

/-- What no core step writes (R27, R28, R34, R45). -/
structure CoreFrame (s t : State) : Prop where
  keyLen : t.keyLen = s.keyLen
  tagCap : t.tagCap = s.tagCap
  msgLen : t.msgLen = s.msgLen
  err : t.err = s.err
  len : t.len = s.len
  key : t.key = s.key
  msg : t.msg = s.msg
  cfg : t.cfg = s.cfg
  inputs : t.inputs = s.inputs

theorem CoreEffect.frame {s t : State} (h : CoreEffect s t) : CoreFrame s t := by
  cases h with
  | round h => constructor <;> rfl
  | stay hr hp => constructor <;> rfl
  | leaveInit hr hp => constructor <;> rfl
  | fullBlock hr hp hb => rw [loadFullBlock_eq]; constructor <;> rfl
  | finalBlock hr hp hb => rw [loadFinalBlock_eq]; constructor <;> rfl
  | leaveFinal hr hp => constructor <;> rfl
  | squeeze hr hp => constructor <;> rfl
  | discard hr hp => constructor <;> rfl

theorem coreStep_frame {s t : State} (hs : coreStep s = .next t) : CoreFrame s t := (coreStep_effect hs).frame

/-! ### What a step of the whole does -/

/-- What the outside leaves as it is when it neither writes `CMD`, nor resets, nor selects an operation: all that the
host may not write (R14, R42), and of the two byte spaces all but one byte. -/
structure OutsideFrame (s t : State) : Prop where
  x : t.x = s.x
  phase : t.phase = s.phase
  blk : t.blk = s.blk
  ridx : t.ridx = s.ridx
  len : t.len = s.len
  buf : t.buf = s.buf
  tag : t.tag = s.tag
  err : t.err = s.err
  cfg : t.cfg = s.cfg
  inputs : t.inputs = s.inputs
  key : t.key = s.key ∨ ∃ (i : Fin 16) (b : Byte), t.key = s.key.write i.val b
  msg : t.msg = s.msg ∨ ∃ (i : Nat) (b : Byte), t.msg = s.msg.write i b

theorem outsideFrame_refl (s : State) : OutsideFrame s s :=
  ⟨rfl, rfl, rfl, rfl, rfl, rfl, rfl, rfl, rfl, rfl, .inl rfl, .inl rfl⟩

/-- The codec's wires are nothing that the outside must leave. -/
theorem outsideFrame_setCodec (s : State) (c : CodecPort) : OutsideFrame s (s.setCodec c) :=
  ⟨rfl, rfl, rfl, rfl, rfl, rfl, rfl, rfl, rfl, rfl, .inl rfl, .inl rfl⟩

/-- A host move that is no command and no reset. -/
theorem hostStep_outside {m : HostMove} {s t : State} (hs : hostStep m s = .next t) :
    (∃ v, m = .wrCmd v ∧ writeCmd v s = .next t) ∨ (m = .reset ∧ t = hardReset s) ∨ OutsideFrame s t := by
  rcases hostStep_inv hs with h | h | rfl | ⟨v, rfl⟩ | ⟨v, rfl⟩ | ⟨n, rfl⟩ | ⟨i, b, rfl⟩ | ⟨-, i, b, rfl⟩ | ⟨r, rfl⟩
  · exact .inl h
  · exact .inr (.inl h)
  · exact .inr (.inr (outsideFrame_refl _))
  · exact .inr (.inr ⟨rfl, rfl, rfl, rfl, rfl, rfl, rfl, rfl, rfl, rfl, .inl rfl, .inl rfl⟩)
  · exact .inr (.inr ⟨rfl, rfl, rfl, rfl, rfl, rfl, rfl, rfl, rfl, rfl, .inl rfl, .inl rfl⟩)
  · exact .inr (.inr ⟨rfl, rfl, rfl, rfl, rfl, rfl, rfl, rfl, rfl, rfl, .inl rfl, .inl rfl⟩)
  · exact .inr (.inr ⟨rfl, rfl, rfl, rfl, rfl, rfl, rfl, rfl, rfl, rfl, .inr ⟨i, b, rfl⟩, .inl rfl⟩)
  · exact .inr (.inr ⟨rfl, rfl, rfl, rfl, rfl, rfl, rfl, rfl, rfl, rfl, .inl rfl, .inr ⟨i, b, rfl⟩⟩)
  · exact .inr (.inr ⟨rfl, rfl, rfl, rfl, rfl, rfl, rfl, rfl, rfl, rfl, .inl rfl, .inl rfl⟩)

/-- The causes of a step's changes. In every case `s.setInputs rest` is the state without the input that was taken, if
one was: the core's own step; a rejected or an accepted command; the reset; another move of the outside; a word at the
engine's port or step select, which no host can reach (R63). -/
inductive StepEffect (s t : State) : Prop where
  | core (rest : List Input) (hi : rest = s.inputs ∨ s.inputs = .pass :: rest)
      (h : CoreEffect (s.setInputs rest) t)
  | rejected (b : Bool) (v : BitVec 8) (e : ErrCode) (rest : List Input) (hi : s.inputs = .host b (.wrCmd v) :: rest)
      (hb : s.phase.busy = false) (ht : t = raise e (s.setInputs rest))
  | accepted (b : Bool) (v : BitVec 8) (rest : List Input) (hi : s.inputs = .host b (.wrCmd v) :: rest)
      (hb : s.phase.busy = false) (ht : t = acceptCommand (s.setInputs rest))
  | reset (b : Bool) (rest : List Input) (hi : s.inputs = .host b .reset :: rest) (ht : t = hardReset (s.setInputs rest))
  | outside (i : Input) (rest : List Input) (hi : s.inputs = i :: rest) (h : OutsideFrame (s.setInputs rest) t)
  | engineWords (i : Input) (rest : List Input) (hi : s.inputs = i :: rest) (hf : i.fromHost = false)
      (X : Words) (ht : t = (s.setInputs rest).setX X)
  | engineRequest (i : Input) (rest : List Input) (hi : s.inputs = i :: rest) (hf : i.fromHost = false)
      (hb : s.phase.busy = false) (r : BitVec 4) (ht : t = requestPerm r (s.setInputs rest))

theorem busy_of_quiescent {s : State} (h : quiescent s = true) : s.phase.busy = false := by
  simp only [quiescent, Bool.and_eq_true, Bool.not_eq_true'] at h
  exact h.1

theorem step_effect {s t : State} (hs : step s = .next t) : StepEffect s t := by
  rcases step_inv hs with ⟨rest, hi, h⟩ | ⟨b, m, rest, hi, h⟩ | ⟨i, rest, hi, hq, hf, h⟩ | ⟨b, w, rest, hi, c, rfl⟩
  · exact .core rest hi (coreStep_effect h)
  · rcases hostStep_outside h with ⟨v, rfl, hv⟩ | ⟨rfl, ht⟩ | ho
    · rcases writeCmd_inv hv with rfl | ⟨hb, e, ht⟩ | ⟨hb, ht⟩
      · exact .outside _ rest hi (outsideFrame_refl _)
      · exact .rejected b v e rest hi hb ht
      · exact .accepted b v rest hi hb ht
    · exact .reset b rest hi ht
    · exact .outside _ rest hi ho
  · rcases h with ⟨X, ht⟩ | ⟨r, ht, -⟩ | ⟨c, rfl⟩
    · exact .engineWords i rest hi hf X ht
    · exact .engineRequest i rest hi hf (busy_of_quiescent hq) r ht
    · exact .outside i rest hi (outsideFrame_setCodec _ c)
  · exact .outside _ rest hi (outsideFrame_setCodec _ c)

/-! ### The sequencing part of the invariant, phase by phase -/

section
variable {s : State}

theorem phaseInv_idle (hp : s.phase = .idle) : phaseInv s = true ↔
    s.blk = 0 ∧ s.len = 0 ∧ s.buf = Vector.replicate 32 0 ∧ s.tag = Vector.replicate 16 0 := by
  simp [phaseInv, hp, and_assoc]

theorem phaseInv_init (hp : s.phase = .init) : phaseInv s = true ↔
    s.blk = 0 ∧ s.buf = Vector.replicate 32 0 ∧ s.tag = Vector.replicate 16 0 := by
  simp [phaseInv, hp, and_assoc]

theorem phaseInv_absorbFull (hp : s.phase = .absorbFull) : phaseInv s = true ↔
    s.blk ≤ numBlocks s.len ∧ s.buf = Vector.replicate 32 0 ∧ s.tag = Vector.replicate 16 0 := by
  simp [phaseInv, hp, and_assoc]

theorem phaseInv_absorbFinal (hp : s.phase = .absorbFinal) : phaseInv s = true ↔
    s.blk = numBlocks s.len ∧ s.tag = Vector.replicate 16 0 := by
  simp [phaseInv, hp]

theorem phaseInv_squeeze (hp : s.phase = .squeeze) : phaseInv s = true ↔
    s.blk = numBlocks s.len ∧ s.ridx = 12 ∧ s.tag = Vector.replicate 16 0 := by
  simp [phaseInv, hp, and_assoc]

theorem phaseInv_done (hp : s.phase = .done) : phaseInv s = true ↔
    s.blk = numBlocks s.len ∧ s.buf = Vector.replicate 32 0 := by
  simp [phaseInv, hp]

/-- The sequencing part looks at these six fields alone. -/
theorem phaseInv_congr {t : State} (hp : t.phase = s.phase) (hb : t.blk = s.blk) (hr : t.ridx = s.ridx)
    (hl : t.len = s.len) (hu : t.buf = s.buf) (ht : t.tag = s.tag) : phaseInv t = phaseInv s := by
  simp only [phaseInv, hp, hb, hr, hl, hu, ht]

/-- The engine may run in every phase but the one of tag extraction. -/
theorem phaseInv_setRidx (h : phaseInv s = true) (hp : s.phase ≠ .squeeze) (r : Fin 13) :
    phaseInv (s.setRidx r) = true := by
  cases hq : s.phase with
  | idle => exact (phaseInv_idle (s := s.setRidx r) hq).2 ((phaseInv_idle hq).1 h)
  | init => exact (phaseInv_init (s := s.setRidx r) hq).2 ((phaseInv_init hq).1 h)
  | absorbFull => exact (phaseInv_absorbFull (s := s.setRidx r) hq).2 ((phaseInv_absorbFull hq).1 h)
  | absorbFinal => exact (phaseInv_absorbFinal (s := s.setRidx r) hq).2 ((phaseInv_absorbFinal hq).1 h)
  | squeeze => exact absurd hq hp
  | done => exact (phaseInv_done (s := s.setRidx r) hq).2 ((phaseInv_done hq).1 h)

/-- In `IDLE` and `DONE` the staging register is zero. -/
theorem buf_zero_of_not_busy (h : phaseInv s = true) (hb : s.phase.busy = false) : s.buf = Vector.replicate 32 0 := by
  rcases (busy_eq_false_iff _).1 hb with hp | hp
  · obtain ⟨-, -, hbuf, -⟩ := (phaseInv_idle hp).1 h
    exact hbuf
  · obtain ⟨-, hbuf⟩ := (phaseInv_done hp).1 h
    exact hbuf

theorem CoreEffect.keeps_phaseInv {t : State} (ht : CoreEffect s t) (h : phaseInv s = true) : phaseInv t = true := by
  cases ht with
  | round hr =>
    have hp : s.phase ≠ .squeeze := fun hp => by
      obtain ⟨-, hidle, -⟩ := (phaseInv_squeeze hp).1 h
      exact (ridx_eq_twelve_iff _).1 hidle hr
    exact phaseInv_setRidx h hp _
  | stay hr hp => exact h
  | leaveInit hr hp =>
    obtain ⟨hblk, hbuf, htag⟩ := (phaseInv_init hp).1 h
    exact (phaseInv_absorbFull rfl).2 ⟨by simp [hblk], hbuf, htag⟩
  | fullBlock hr hp hb =>
    obtain ⟨-, hbuf, htag⟩ := (phaseInv_absorbFull hp).1 h
    rw [loadFullBlock_eq]
    exact (phaseInv_absorbFull (by exact hp)).2 ⟨Nat.succ_le_of_lt hb, hbuf, htag⟩
  | finalBlock hr hp hb =>
    obtain ⟨hblk, -, htag⟩ := (phaseInv_absorbFull hp).1 h
    rw [loadFinalBlock_eq]
    exact (phaseInv_absorbFinal rfl).2 ⟨Nat.le_antisymm hblk (Nat.not_lt.1 hb), htag⟩
  | leaveFinal hr hp =>
    obtain ⟨hblk, htag⟩ := (phaseInv_absorbFinal hp).1 h
    exact (phaseInv_squeeze rfl).2 ⟨hblk, hr, htag⟩
  | squeeze hr hp =>
    obtain ⟨hblk, -, -⟩ := (phaseInv_squeeze hp).1 h
    exact (phaseInv_done rfl).2 ⟨hblk, rfl⟩
  | discard hr hp =>
    obtain ⟨hblk, -⟩ := (phaseInv_done hp).1 h
    exact (phaseInv_done (s := discardState s) hp).2 ⟨hblk, rfl⟩

theorem phaseInv_acceptCommand (h : phaseInv s = true) (hb : s.phase.busy = false) :
    phaseInv (acceptCommand s) = true := by
  have hbuf := buf_zero_of_not_busy h hb
  rw [acceptCommand_eq]
  exact (phaseInv_init rfl).2 ⟨rfl, hbuf, rfl⟩

theorem phaseInv_hardReset (s : State) : phaseInv (hardReset s) = true := (phaseInv_idle rfl).2 ⟨rfl, rfl, rfl, rfl⟩

theorem phaseInv_requestPerm (h : phaseInv s = true) (hb : s.phase.busy = false) (r : BitVec 4) :
    phaseInv (requestPerm r s) = true :=
  phaseInv_setRidx h (fun hp => by rw [hp] at hb; cases hb) _

end

/-- Every step keeps the sequencing part. -/
theorem step_keeps_phaseInv {s t : State} (h : phaseInv s = true) (hs : step s = .next t) : phaseInv t = true := by
  cases step_effect hs with
  | core rest hi hc => exact hc.keeps_phaseInv h
  | rejected b v e rest hi hb ht => subst ht; exact h
  | accepted b v rest hi hb ht => subst ht; exact phaseInv_acceptCommand (s := s.setInputs rest) h hb
  | reset b rest hi ht => subst ht; exact phaseInv_hardReset _
  | outside i rest hi ho => exact (phaseInv_congr ho.phase ho.blk ho.ridx ho.len ho.buf ho.tag).trans h
  | engineWords i rest hi hf X ht => subst ht; exact h
  | engineRequest i rest hi hf hb r ht => subst ht; exact phaseInv_requestPerm (s := s.setInputs rest) h hb r

/-! ### The byte spaces -/

/-- What a step can do to the byte spaces: nothing, or a write of one byte in each space's own range (R33, R36). -/
theorem step_spaces {s t : State} (hs : step s = .next t) :
    (t.key = s.key ∨ ∃ (i : Fin 16) (b : Byte), t.key = s.key.write i.val b) ∧
    (t.msg = s.msg ∨ ∃ (i : Nat) (b : Byte), t.msg = s.msg.write i b) := by
  cases step_effect hs with
  | core rest hi hc => exact ⟨.inl hc.frame.key, .inl hc.frame.msg⟩
  | rejected b v e rest hi hb ht => subst ht; exact ⟨.inl rfl, .inl rfl⟩
  | accepted b v rest hi hb ht => rw [ht, acceptCommand_eq]; exact ⟨.inl rfl, .inl rfl⟩
  | reset b rest hi ht => subst ht; exact ⟨.inl rfl, .inl rfl⟩
  | outside i rest hi ho => exact ⟨ho.key, ho.msg⟩
  | engineWords i rest hi hf X ht => subst ht; exact ⟨.inl rfl, .inl rfl⟩
  | engineRequest i rest hi hf hb r ht => subst ht; exact ⟨.inl rfl, .inl rfl⟩

/-- Settles O45: the sequencing part by the cause of the step, the two spaces because a step writes one byte at most. -/
theorem stepKeepsTheInvariant : Obligations.StepKeepsTheInvariant := by
  intro s t h hs
  obtain ⟨hphase, hkey, hbelow, hmsg⟩ := h
  obtain ⟨hk, hm⟩ := step_spaces hs
  refine ⟨step_keeps_phaseInv hphase hs, ?_, ?_, ?_⟩
  · rcases hk with hk | ⟨i, b, hk⟩ <;> rw [hk]
    · exact hkey
    · exact Memory.wf_write _ _ hkey
  · rcases hk with hk | ⟨i, b, hk⟩ <;> rw [hk]
    · exact hbelow
    · exact Memory.below_write _ i.isLt hbelow
  · rcases hm with hm | ⟨i, b, hm⟩ <;> rw [hm]
    · exact hmsg
    · exact Memory.wf_write _ _ hmsg

/-! ### With a host alone outside -/

/-- Not busy, the block holds nothing: the engine is idle and `x` and `BUF` are zero (R97, R134). -/
def EmptyWhenNotBusy (s : State) : Prop :=
  s.phase.busy = false → s.ridx = 12 ∧ s.x = Words.zero ∧ s.buf = Vector.replicate 32 0

theorem CoreEffect.keeps_emptyWhenNotBusy {s t : State} (ht : CoreEffect s t) (h : EmptyWhenNotBusy s) :
    EmptyWhenNotBusy t := by
  intro hb
  cases ht with
  | round hr =>
    obtain ⟨hidle, -, -⟩ := h hb
    exact absurd hr ((ridx_eq_twelve_iff _).1 hidle)
  | stay hr hp => exact h hb
  | leaveInit hr hp => cases hb
  | fullBlock hr hp hb' =>
    rw [loadFullBlock_eq] at hb
    rw [show s.phase.busy = true by rw [hp]; rfl] at hb
    cases hb
  | finalBlock hr hp hb' => rw [loadFinalBlock_eq] at hb; cases hb
  | leaveFinal hr hp => cases hb
  | squeeze hr hp => exact ⟨hr, rfl, rfl⟩
  | discard hr hp => exact ⟨hr, rfl, rfl⟩

theorem emptyWhenNotBusy_acceptCommand (s : State) : EmptyWhenNotBusy (acceptCommand s) := by
  rw [acceptCommand_eq]
  intro hb
  cases hb

theorem emptyWhenNotBusy_hardReset (s : State) : EmptyWhenNotBusy (hardReset s) := fun _ => ⟨rfl, rfl, rfl⟩

/-- What is pending after a step is what was pending before it, without the first input if that was taken. -/
theorem step_inputs {s t : State} (hs : step s = .next t) : t.inputs = s.inputs ∨ ∃ i, s.inputs = i :: t.inputs := by
  cases step_effect hs with
  | core rest hi hc =>
    have hin : t.inputs = rest := hc.frame.inputs
    rw [hin]
    exact hi.imp id fun hpass => ⟨_, hpass⟩
  | rejected b v e rest hi hb ht => subst ht; exact .inr ⟨_, hi⟩
  | accepted b v rest hi hb ht => rw [ht, acceptCommand_eq]; exact .inr ⟨_, hi⟩
  | reset b rest hi ht => subst ht; exact .inr ⟨_, hi⟩
  | outside i rest hi ho =>
    have hin : t.inputs = rest := ho.inputs
    rw [hin]
    exact .inr ⟨_, hi⟩
  | engineWords i rest hi hf X ht => subst ht; exact .inr ⟨_, hi⟩
  | engineRequest i rest hi hf hb r ht => subst ht; exact .inr ⟨_, hi⟩

/-- A host cannot bring about a word at an internal select. -/
theorem not_fromHost_absurd {s : State} {i : Input} {rest : List Input} (h : s.inputs.all Input.fromHost = true)
    (hi : s.inputs = i :: rest) (hf : i.fromHost = false) : False := by
  simp [hi, hf] at h

theorem step_fromHost {s t : State} (h : s.inputs.all Input.fromHost = true) (hs : step s = .next t) :
    t.inputs.all Input.fromHost = true := by
  rcases step_inputs hs with hin | ⟨i, hin⟩
  · rwa [hin]
  · rw [hin, List.all_cons, Bool.and_eq_true] at h
    exact h.2

/-- Settles O46: pending inputs stay the host's, and the cause of the step decides what is left: rounds run only while
busy, `SQUEEZE` discards, a command makes the core busy, and no other cause touches the block. -/
theorem nothingIsLeftWhenNotBusy : Obligations.NothingIsLeftWhenNotBusy := by
  intro s t h hs
  obtain ⟨hhost, hempty⟩ := h
  refine ⟨step_fromHost hhost hs, ?_⟩
  cases step_effect hs with
  | core rest hi hc => exact hc.keeps_emptyWhenNotBusy hempty
  | rejected b v e rest hi hb ht => subst ht; exact hempty
  | accepted b v rest hi hb ht => subst ht; exact emptyWhenNotBusy_acceptCommand _
  | reset b rest hi ht => subst ht; exact emptyWhenNotBusy_hardReset _
  | outside i rest hi ho => rw [ho.phase, ho.ridx, ho.x, ho.buf]; exact hempty
  | engineWords i rest hi hf X ht => exact (not_fromHost_absurd hhost hi hf).elim
  | engineRequest i rest hi hf hb r ht => exact (not_fromHost_absurd hhost hi hf).elim

/-- Settles O44: the values are the fields of `State.resetWith`, which meet both invariants. -/
theorem resetValuesAndInvariants : Obligations.ResetValuesAndInvariants := by
  have hinv : Inv State.reset := ⟨(phaseInv_idle rfl).2 ⟨rfl, rfl, rfl, rfl⟩, rfl, rfl, rfl⟩
  have hhost : HostOnlyInv State.reset := ⟨rfl, fun _ => ⟨rfl, rfl, rfl⟩⟩
  exact ⟨rfl, rfl, rfl, rfl, rfl, fun k => Vector.getElem_replicate k.isLt, fun k => Vector.getElem_replicate k.isLt,
    rfl, rfl, rfl, rfl, hinv, hhost⟩

/-! ### What a step can change, field by field -/

/-- Settles O54: `phase` moves with the core's rows, with an accepted command and with the reset, and with nothing else. -/
theorem phaseChangesFollowTheGraph : Obligations.PhaseChangesFollowTheGraph := by
  intro s t hs
  cases step_effect hs with
  | core rest hi hc =>
    cases hc with
    | round hr => exact .inl rfl
    | stay hr hp => exact .inl rfl
    | leaveInit hr hp => exact .inr (.inr (.inr (.inl ⟨hp, hr, rfl⟩)))
    | fullBlock hr hp hb => rw [loadFullBlock_eq]; exact .inl rfl
    | finalBlock hr hp hb => rw [loadFinalBlock_eq]; exact .inr (.inr (.inr (.inr (.inl ⟨hp, hr, hb, rfl⟩))))
    | leaveFinal hr hp => exact .inr (.inr (.inr (.inr (.inr (.inl ⟨hp, hr, rfl⟩)))))
    | squeeze hr hp => exact .inr (.inr (.inr (.inr (.inr (.inr (.inl ⟨hp, rfl⟩))))))
    | discard hr hp => exact .inl rfl
  | rejected b v e rest hi hb ht => subst ht; exact .inl rfl
  | accepted b v rest hi hb ht =>
    rw [ht, acceptCommand_eq]
    rcases (busy_eq_false_iff _).1 hb with hp | hp
    · exact .inr (.inl ⟨hp, rfl⟩)
    · exact .inr (.inr (.inl ⟨hp, rfl⟩))
  | reset b rest hi ht => subst ht; exact .inr (.inr (.inr (.inr (.inr (.inr (.inr ⟨rfl, b, rest, hi⟩))))))
  | outside i rest hi ho => exact .inl ho.phase
  | engineWords i rest hi hf X ht => subst ht; exact .inl rfl
  | engineRequest i rest hi hf hb r ht => subst ht; exact .inl rfl

/-- Settles O56: by the cause of the step; an absorption leaves word 4, and the separation flips its bit 0; a bench's words at the engine are excluded by the hypothesis. -/
theorem capacityWordIsTouchedOnlyAsStated : Obligations.CapacityWordIsTouchedOnlyAsStated := by
  intro s t hhost hs
  cases step_effect hs with
  | core rest hi hc =>
    cases hc with
    | round hr => exact .inr (.inr (.inl ⟨hr, rfl⟩))
    | stay hr hp => exact .inl rfl
    | leaveInit hr hp => exact .inl rfl
    | fullBlock hr hp hb => rw [loadFullBlock_eq]; exact .inl rfl
    | finalBlock hr hp hb => rw [loadFinalBlock_eq]; exact .inr (.inr (.inr ⟨hp, rfl, rfl⟩))
    | leaveFinal hr hp => exact .inl rfl
    | squeeze hr hp => exact .inr (.inl ⟨rfl, .inr (.inl rfl)⟩)
    | discard hr hp => exact .inr (.inl ⟨rfl, .inr (.inl hp)⟩)
  | rejected b v e rest hi hb ht => subst ht; exact .inl rfl
  | accepted b v rest hi hb ht => rw [ht, acceptCommand_eq]; exact .inr (.inl ⟨rfl, .inl rfl⟩)
  | reset b rest hi ht => subst ht; exact .inr (.inl ⟨rfl, .inr (.inr rfl)⟩)
  | outside i rest hi ho => exact .inl (congrArg Words.x4 ho.x)
  | engineWords i rest hi hf X ht => exact (not_fromHost_absurd hhost hi hf).elim
  | engineRequest i rest hi hf hb r ht => exact (not_fromHost_absurd hhost hi hf).elim

/-- Settles O57: `SQUEEZE` writes the tag; an accepted command and the reset clear it; every other cause leaves it. -/
theorem tagIsWrittenOnlyBySqueezeOrCleared : Obligations.TagIsWrittenOnlyBySqueezeOrCleared := by
  intro s t hs hne
  cases step_effect hs with
  | core rest hi hc =>
    cases hc with
    | round hr => exact absurd rfl hne
    | stay hr hp => exact absurd rfl hne
    | leaveInit hr hp => exact absurd rfl hne
    | fullBlock hr hp hb => rw [loadFullBlock_eq] at hne; exact absurd rfl hne
    | finalBlock hr hp hb => rw [loadFinalBlock_eq] at hne; exact absurd rfl hne
    | leaveFinal hr hp => exact absurd rfl hne
    | squeeze hr hp => exact .inl ⟨hp, rfl, rfl⟩
    | discard hr hp => exact absurd rfl hne
  | rejected b v e rest hi hb ht => subst ht; exact absurd rfl hne
  | accepted b v rest hi hb ht => rw [ht, acceptCommand_eq]; exact .inr ⟨rfl, .inl rfl⟩
  | reset b rest hi ht => subst ht; exact .inr ⟨rfl, .inr rfl⟩
  | outside i rest hi ho => exact absurd ho.tag hne
  | engineWords i rest hi hf X ht => subst ht; exact absurd rfl hne
  | engineRequest i rest hi hf hb r ht => subst ht; exact absurd rfl hne

/-- Settles O58: only a command and the reset write either field, and an accepted command latches `MSG_LEN`. -/
theorem errAndLenChangeOnlyAtCommandsAndReset : Obligations.ErrAndLenChangeOnlyAtCommandsAndReset := by
  intro s t hs
  cases step_effect hs with
  | core rest hi hc => exact ⟨fun hne => absurd hc.frame.err hne, fun hne => absurd hc.frame.len hne⟩
  | rejected b v e rest hi hb ht =>
    subst ht
    exact ⟨fun _ => ⟨b, _, rest, hi, .inl ⟨v, rfl⟩⟩, fun hne => absurd rfl hne⟩
  | accepted b v rest hi hb ht =>
    rw [ht, acceptCommand_eq]
    exact ⟨fun _ => ⟨b, _, rest, hi, .inl ⟨v, rfl⟩⟩, fun _ => .inl ⟨rfl, rfl, hb⟩⟩
  | reset b rest hi ht =>
    subst ht
    exact ⟨fun _ => ⟨b, _, rest, hi, .inr rfl⟩, fun _ => .inr ⟨rfl, rfl⟩⟩
  | outside i rest hi ho => exact ⟨fun hne => absurd ho.err hne, fun hne => absurd ho.len hne⟩
  | engineWords i rest hi hf X ht => subst ht; exact ⟨fun hne => absurd rfl hne, fun hne => absurd rfl hne⟩
  | engineRequest i rest hi hf hb r ht => subst ht; exact ⟨fun hne => absurd rfl hne, fun hne => absurd rfl hne⟩

/-- The parameter values are no state that any step writes (R9, R24, R31). -/
theorem step_cfg {s t : State} (hs : step s = .next t) : t.cfg = s.cfg := by
  cases step_effect hs with
  | core rest hi hc => exact hc.frame.cfg
  | rejected b v e rest hi hb ht => subst ht; rfl
  | accepted b v rest hi hb ht => rw [ht, acceptCommand_eq]; rfl
  | reset b rest hi ht => subst ht; rfl
  | outside i rest hi ho => exact ho.cfg
  | engineWords i rest hi hf X ht => subst ht; rfl
  | engineRequest i rest hi hf hb r ht => subst ht; rfl

/-- A read of the host depends on what it can see alone, and extends the host's own list of reads (R14, R42). -/
theorem hostStep_read_congr {m : HostMove} {s t : State} (hm : m.isRead = true) (h : SameView s t) :
    ∃ r : HostRead, hostStep m s = .next (s.observe r) ∧ hostStep m t = .next (t.observe r) := by
  obtain ⟨hphase, herr, htag, hkeyLen, htagCap, hmsgLen⟩ := h
  cases m with
  | rdCmd => exact ⟨_, rfl, rfl⟩
  | rdStatus => exact ⟨.status (status s), rfl, by simp only [hostStep, status, hphase, herr]⟩
  | rdKeyLen => exact ⟨.keyLen s.keyLen, rfl, by simp only [hostStep, hkeyLen]⟩
  | rdTagCap => exact ⟨.tagCap s.tagCap, rfl, by simp only [hostStep, htagCap]⟩
  | rdMsgLen => exact ⟨.msgLen s.msgLen, rfl, by simp only [hostStep, hmsgLen]⟩
  | rdTag i => exact ⟨.tag i s.tag[i], rfl, by simp only [hostStep, htag]⟩
  | _ => cases hm

/-- Settles O59: by the cause of the step; and two states that differ in the parameters are one view. -/
theorem parametersAreNeverChanged : Obligations.ParametersAreNeverChanged := by
  refine ⟨fun _ _ => step_cfg, fun m s c hm => ?_⟩
  have hview : SameView (s.setCfg c) s := ⟨rfl, rfl, rfl, rfl, rfl, rfl⟩
  obtain ⟨r, hread, hread'⟩ := hostStep_read_congr hm hview
  rw [hread, hread']
  rfl

end Sys2Proof.Machine
end

section
/-! PROOFS of the statements about the host's interface (10_state.md, 20_memory.md) and about several blocks (R46, R124). -/

namespace Sys2Proof.Machine

/-! ### Reads of the host -/

/-- The fields of `STATUS` as its bits, from the codes it is put together from (R26). -/
theorem statusBits (e : BitVec 2) (d b : Bool) (p : BitVec 3) :
    (0#1 ++ e ++ BitVec.ofBool d ++ BitVec.ofBool b ++ p).extractLsb' 0 3 = p ∧
    (0#1 ++ e ++ BitVec.ofBool d ++ BitVec.ofBool b ++ p)[3] = b ∧
    (0#1 ++ e ++ BitVec.ofBool d ++ BitVec.ofBool b ++ p)[4] = d ∧
    (0#1 ++ e ++ BitVec.ofBool d ++ BitVec.ofBool b ++ p).extractLsb' 5 2 = e ∧
    (0#1 ++ e ++ BitVec.ofBool d ++ BitVec.ofBool b ++ p)[7] = false := by
  revert e d b p; decide

/-- Settles O48: the fields are the codes that `status` puts together, and each code is read off its definition. -/
theorem statusShowsItsFields : Obligations.StatusShowsItsFields := by
  intro s
  obtain ⟨hphase, hbusy, hdone, herr, htop⟩ := statusBits s.err.code s.phase.isDone s.phase.busy s.phase.code
  refine ⟨?_, ?_, ?_, ?_, htop, rfl, fun _ => rfl⟩
  · rw [status, hphase]
    cases s.phase <;> rfl
  · rw [status, hbusy, busy_eq_true_iff]
  · rw [status, hdone]
    cases s.phase <;> decide
  · rw [status, herr]
    cases s.err <;> rfl

/-- Settles O49: `STATUS`, `TAG` and the parameter registers are all that a read looks at. -/
theorem hostReadsSeeNoPrivateState : Obligations.HostReadsSeeNoPrivateState :=
  fun _ _ _ => hostStep_read_congr

/-! ### Writes of the host -/

/-- Settles O50: with the command and the reset excluded, the move is one of those that leave the block's own state. -/
theorem hostMovesWriteNoPrivateState : Obligations.HostMovesWriteNoPrivateState := by
  intro m s t hcmd hreset hs
  rcases hostStep_outside hs with ⟨v, rfl, -⟩ | ⟨rfl, -⟩ | ho
  · exact absurd rfl (hcmd v)
  · exact absurd rfl hreset
  · exact ⟨ho.x, ho.phase, ho.blk, ho.ridx, ho.len, ho.buf, ho.tag, ho.err, ho.cfg⟩

/-- Settles O51: each move is its line of the host's interface. -/
theorem hostRegistersReadAndWrite : Obligations.HostRegistersReadAndWrite :=
  fun _ => ⟨rfl, rfl, rfl, rfl, fun _ => ⟨rfl, rfl⟩, fun _ => rfl, fun _ => rfl, fun _ _ => rfl⟩

theorem hostStep_wrMsg_of_not_busy {s : State} (hb : s.phase.busy = false) (i : Nat) (b : Byte) :
    hostStep (.wrMsg i b) s = .next (s.setMsg (s.msg.write i b)) := by
  simp [hostStep, hb]

theorem hostStep_wrMsg_of_busy {s : State} (hb : s.phase.busy = true) (i : Nat) (b : Byte) :
    hostStep (.wrMsg i b) s = .refused .msgWriteWhileBusy := by
  simp [hostStep, hb]

/-- Settles O52: the written space reads as `Memory.write` says, the other is not touched. -/
theorem hostByteWriteStoresThatByte : Obligations.HostByteWriteStoresThatByte := by
  intro s b h
  obtain ⟨-, hkey, -, hmsg⟩ := h
  refine ⟨fun i => ?_, fun i hp => ?_, fun i hb => hostStep_wrMsg_of_busy hb i b⟩
  · exact ⟨s.setKey (s.key.write i.val b), rfl, Memory.read_write_same _ _ hkey (Nat.zero_le _),
      fun a ha => Memory.read_write_other b ha, fun _ => rfl, rfl⟩
  · exact ⟨s.setMsg (s.msg.write i b), hostStep_wrMsg_of_not_busy ((busy_eq_false_iff _).2 hp) i b,
      Memory.read_write_same _ _ hmsg (Nat.zero_le _), fun a ha => Memory.read_write_other b ha, fun _ => rfl, rfl⟩

/-! ### Several blocks -/

namespace Instances

/-- A step of block `k` that answers: there is none and nothing happens, or its next state is put in its place. -/
theorem stepAt_inv {ss tt : Instances} {k : Nat} (h : ss.stepAt k = .next tt) :
    (ss.get? k = none ∧ tt = ss) ∨ ∃ s t, ss.get? k = some s ∧ step s = .next t ∧ tt = ss.set k t := by
  rcases stepAt_cases ss k with ⟨hk, hn⟩ | ⟨s, hk, hp⟩
  · rw [hn] at h
    cases h
    exact .inl ⟨hk, rfl⟩
  · rw [hp] at h
    cases ho : step s with
    | next t =>
      rw [ho] at h
      cases h
      exact .inr ⟨s, t, hk, ho, rfl⟩
    | fault e => rw [ho] at h; cases h
    | refused e => rw [ho] at h; cases h

theorem stepAt_none {ss : Instances} {k : Nat} (h : ss.get? k = none) : ss.stepAt k = .next ss := by
  simp [stepAt, h]

theorem stepAt_some {ss : Instances} {k : Nat} {s t : State} (h : ss.get? k = some s) (hs : step s = .next t) :
    ss.stepAt k = .next (ss.set k t) := by
  simp [stepAt, put, h, hs]

/-- A step of one block leaves every other. -/
theorem get?_of_stepAt {ss tt : Instances} {j k : Nat} (hjk : j ≠ k) (h : ss.stepAt k = .next tt) :
    tt.get? j = ss.get? j := by
  rcases stepAt_inv h with ⟨-, rfl⟩ | ⟨s, t, -, -, rfl⟩
  · rfl
  · exact get?_set_ne ss hjk t

theorem count_of_stepAt {ss tt : Instances} {k : Nat} (h : ss.stepAt k = .next tt) : tt.count = ss.count := by
  rcases stepAt_inv h with ⟨-, rfl⟩ | ⟨s, t, -, -, rfl⟩
  · rfl
  · exact count_set ss k t

/-- Steps of two blocks commute: each finds its own state as it was, and the two replacements commute. -/
theorem stepAt_comm {ss tt uu : Instances} {j k : Nat} (hjk : j ≠ k) (hk : ss.stepAt k = .next tt)
    (hj : tt.stepAt j = .next uu) : ∃ vv, ss.stepAt j = .next vv ∧ vv.stepAt k = .next uu := by
  have hsame : tt.get? j = ss.get? j := get?_of_stepAt hjk hk
  rcases stepAt_inv hj with ⟨hnone, rfl⟩ | ⟨s, s', hs, hstep, rfl⟩
  · exact ⟨ss, stepAt_none (hsame ▸ hnone), hk⟩
  · have hj' : ss.stepAt j = .next (ss.set j s') := stepAt_some (hsame ▸ hs) hstep
    have hback : (ss.set j s').get? k = ss.get? k := get?_set_ne ss hjk.symm s'
    refine ⟨_, hj', ?_⟩
    rcases stepAt_inv hk with ⟨hnone, rfl⟩ | ⟨u, u', hu, hstep', rfl⟩
    · exact stepAt_none (hback.trans hnone)
    · rw [stepAt_some (hback.trans hu) hstep', set_comm ss hjk]

end Instances

/-- Settles O60: the frame of one block's step, and that two of them commute. -/
theorem instancesAreIndependent : Obligations.InstancesAreIndependent :=
  fun ss _ _ _ hjk h => ⟨Instances.get?_of_stepAt hjk h, Instances.count_of_stepAt h, Instances.count_pos ss,
    fun _ hj => Instances.stepAt_comm hjk h hj⟩

end Sys2Proof.Machine
end

section
/-! PROOFS of the statements about the byte/word codec and the rotation helper (41_byte_word_codec.md). -/

namespace Sys2Proof.Machine

/-! ### `B2W` and `W2B` -/

/-- `B2W` undoes `W2B` (R85): bit `i` comes from byte `7 − i/8`, where `W2B` put it. -/
theorem b2w_w2b (w : Word) : b2w (w2b w) = w := by
  ext i hi
  simp only [← BitVec.getLsbD_eq_getElem]
  rw [b2w_getLsbD _ i hi, w2b_getLsbD _ _ _ (by omega) (by omega)]
  congr 1
  omega

/-- `B2W` as a number: one byte in front of the other makes `2^8` times the first and the second (R83). -/
theorem b2w_toNat (b : Vector Byte 8) : (b2w b).toNat =
    b[0].toNat * 2 ^ 56 + b[1].toNat * 2 ^ 48 + b[2].toNat * 2 ^ 40 + b[3].toNat * 2 ^ 32 + b[4].toNat * 2 ^ 24 +
      b[5].toNat * 2 ^ 16 + b[6].toNat * 2 ^ 8 + b[7].toNat := by
  have happend {m : Nat} (v : BitVec m) (c : Byte) : (v ++ c).toNat = v.toNat * 2 ^ 8 + c.toNat := by
    rw [BitVec.toNat_append, Nat.shiftLeft_eq, Nat.mul_comm, Nat.two_pow_add_eq_or_of_lt c.isLt]
  simp only [b2w, happend]
  omega

/-- Settles O5: the result is `b2w` of the operand's bytes. -/
theorem b2wIsBigEndian : Obligations.B2wIsBigEndian :=
  fun s => ⟨b2w s.codec.inBytes, rfl, b2w_toNat _, fun k => b2w_extractLsb' _ k.val k.isLt⟩

/-- Settles O6: the result is `w2b` of the operand, bit by bit. -/
theorem w2bGivesTheBytesOfTheWord : Obligations.W2bGivesTheBytesOfTheWord := by
  intro s
  refine ⟨w2b s.codec.inWord, rfl, fun k j => ?_⟩
  have hbit := w2b_getLsbD s.codec.inWord k j k.isLt j.isLt
  rwa [BitVec.getLsbD_eq_getElem j.isLt] at hbit

/-- Settles O7: each undoes the other, bit by bit. -/
theorem codecFunctionsAreInverse : Obligations.CodecFunctionsAreInverse := ⟨w2b_b2w, b2w_w2b⟩

/-! ### The rotation helper -/

/-- Rotations add up; amounts are 6 bits, so the sum is modulo 64 (R87). -/
theorem rotr_rotr (w : Word) (m n : BitVec 6) : rotr (rotr w m) n = rotr w (m + n) := by
  ext i hi
  simp only [← BitVec.getLsbD_eq_getElem]
  rw [rotr_getLsbD _ n i hi, rotr_getLsbD w m _ (Nat.mod_lt _ (by decide)), rotr_getLsbD w (m + n) i hi, BitVec.toNat_add]
  congr 1
  omega

theorem rotr_zero (w : Word) : rotr w 0#6 = w := by
  ext i hi
  simp only [← BitVec.getLsbD_eq_getElem]
  rw [rotr_getLsbD w 0#6 i hi]
  congr 1
  exact Nat.mod_eq_of_lt hi

theorem rotr_xor (v w : Word) (n : BitVec 6) : rotr (v ^^^ w) n = rotr v n ^^^ rotr w n := by
  ext i hi
  simp only [← BitVec.getLsbD_eq_getElem, rotr_getLsbD _ n i hi, BitVec.getLsbD_xor]

theorem rotr_and (v w : Word) (n : BitVec 6) : rotr (v &&& w) n = rotr v n &&& rotr w n := by
  ext i hi
  simp only [← BitVec.getLsbD_eq_getElem, rotr_getLsbD _ n i hi, BitVec.getLsbD_and]

theorem rotr_not (w : Word) (n : BitVec 6) : rotr (~~~w) n = ~~~(rotr w n) := by
  ext i hi
  have hmod : (i + n.toNat) % 64 < 64 := Nat.mod_lt _ (by decide)
  simp only [← BitVec.getLsbD_eq_getElem, rotr_getLsbD _ n i hi, BitVec.getLsbD_not, hi, hmod, decide_true,
    Bool.true_and]

/-- Rotation away from bit 0 is rotation toward it by the opposite amount (R86). -/
theorem rotl_eq_rotr_neg (w : Word) (n : BitVec 6) : rotl w n = rotr w (-n) := by
  have h : BitVec.ofNat 6 ((64 - n.toNat) % 64) = -n := by
    apply BitVec.eq_of_toNat_eq
    rw [BitVec.toNat_ofNat, BitVec.toNat_neg]
    exact Nat.mod_mod _ _
  rw [rotl, h]

/-- The amount of the rotation toward bit 0 that the configured helper makes (R86). -/
def rotrAmount (c : Config) (n : BitVec 6) : BitVec 6 :=
  match c.rotDir with
  | .right => n
  | .left => -n

/-- In either direction the helper is a rotation toward bit 0. -/
theorem rotate_eq_rotr (c : Config) (w : Word) (n : BitVec 6) : rotate c w n = rotr w (rotrAmount c n) := by
  unfold rotate rotrAmount
  cases c.rotDir
  · rfl
  · exact rotl_eq_rotr_neg w n

theorem rotrAmount_add (c : Config) (m n : BitVec 6) : rotrAmount c m + rotrAmount c n = rotrAmount c (m + n) := by
  unfold rotrAmount
  cases c.rotDir
  · rfl
  · exact (neg_add m n).symm

theorem rotrAmount_zero (c : Config) : rotrAmount c 0#6 = 0#6 := by
  unfold rotrAmount
  cases c.rotDir <;> rfl

/-- Settles O8: in either direction bit `k` is a bit of the rotation toward bit 0. -/
theorem rotrMovesBitsTowardBitZero : Obligations.RotrMovesBitsTowardBitZero := by
  intro s n
  refine ⟨rotate s.cfg s.codec.inWord n, rfl, fun hdir k => ?_, fun hdir k => ?_⟩
  · have hrot : rotate s.cfg s.codec.inWord n = rotr s.codec.inWord n := by rw [rotate, hdir]
    simp only [hrot]
    exact rotr_getLsbD s.codec.inWord n k.val k.isLt
  · have hrot : rotate s.cfg s.codec.inWord n = rotl s.codec.inWord n := by rw [rotate, hdir]
    simp only [hrot, rotl_eq_rotr_neg]
    refine (rotr_getLsbD s.codec.inWord (-n) k.val k.isLt).trans ?_
    rw [BitVec.toNat_neg]
    congr 1
    have := n.isLt
    omega

/-- Settles O9: the amounts `n` and `64 − n` add up to 0 in 6 bits, in either direction. -/
theorem rotationLaws : Obligations.RotationLaws := by
  refine ⟨fun c x n h1 h63 => ?_, fun w m n => ?_, fun v w n => ⟨rotr_xor v w n, rotr_and v w n, rotr_not w n⟩⟩
  · have hsum : BitVec.ofNat 6 n + BitVec.ofNat 6 (64 - n) = 0#6 := by
      apply BitVec.eq_of_toNat_eq
      simp only [BitVec.toNat_add, BitVec.toNat_ofNat]
      omega
    rw [rotate_eq_rotr, rotate_eq_rotr, rotr_rotr, rotrAmount_add, hsum, rotrAmount_zero, rotr_zero]
  · rw [rotr_rotr]
    congr 1
    apply BitVec.eq_of_toNat_eq
    simp only [BitVec.toNat_add, BitVec.toNat_ofNat]
    exact (Nat.mod_mod _ _).symm

end Sys2Proof.Machine
end

section
/-! PROOFS of the statements about the layers and the permutation as functions of the five words
(40_permutation_engine.md, 90_conflicts.md C1). -/

namespace Sys2Proof.Machine

/-! ### A map of the five words into themselves is a bijection as soon as it is injective -/

theorem words_ext {S T : Words} (h0 : S.x0 = T.x0) (h1 : S.x1 = T.x1) (h2 : S.x2 = T.x2) (h3 : S.x3 = T.x3)
    (h4 : S.x4 = T.x4) : S = T := by
  cases S
  cases T
  rw [Words.mk.injEq]
  exact ⟨h0, h1, h2, h3, h4⟩

theorem finite_words : Finite Words := by
  refine Finite.of_injective (fun S : Words => (S.x0, S.x1, S.x2, S.x3, S.x4)) fun S T h => ?_
  simp only [Prod.mk.injEq] at h
  obtain ⟨h0, h1, h2, h3, h4⟩ := h
  exact words_ext h0 h1 h2 h3 h4

theorem bijective_of_injective {f : Words → Words} (h : Function.Injective f) : Function.Bijective f :=
  have := finite_words
  Finite.injective_iff_bijective.1 h

/-! ### Constant addition -/

theorem addConstant_involutive (c : Config) (i : Fin 12) : Function.Involutive (addConstant c i) := fun S => by
  simp [addConstant]

/-! ### Substitution, lane by lane -/

/-- A lane from its five bits, word 0 the most significant (R55). -/
def laneOf (p0 p1 p2 p3 p4 : Bool) : BitVec 5 :=
  BitVec.ofBool p0 ++ BitVec.ofBool p1 ++ BitVec.ofBool p2 ++ BitVec.ofBool p3 ++ BitVec.ofBool p4

theorem lane_eq (S : Words) (b : Fin 64) : lane S b = laneOf S.x0[b] S.x1[b] S.x2[b] S.x3[b] S.x4[b] := rfl

theorem laneOf_bits (p0 p1 p2 p3 p4 : Bool) :
    (laneOf p0 p1 p2 p3 p4)[4] = p0 ∧ (laneOf p0 p1 p2 p3 p4)[3] = p1 ∧ (laneOf p0 p1 p2 p3 p4)[2] = p2 ∧
    (laneOf p0 p1 p2 p3 p4)[1] = p3 ∧ (laneOf p0 p1 p2 p3 p4)[0] = p4 := by
  revert p0 p1 p2 p3 p4; decide

/-- The lanes determine the words. -/
theorem words_ext_lane {S T : Words} (h : ∀ b, lane S b = lane T b) : S = T := by
  have hbits (b : Fin 64) : S.x0[b] = T.x0[b] ∧ S.x1[b] = T.x1[b] ∧ S.x2[b] = T.x2[b] ∧ S.x3[b] = T.x3[b] ∧
      S.x4[b] = T.x4[b] := by
    obtain ⟨s0, s1, s2, s3, s4⟩ := laneOf_bits S.x0[b] S.x1[b] S.x2[b] S.x3[b] S.x4[b]
    obtain ⟨t0, t1, t2, t3, t4⟩ := laneOf_bits T.x0[b] T.x1[b] T.x2[b] T.x3[b] T.x4[b]
    have hb := h b
    rw [lane_eq, lane_eq] at hb
    rw [hb] at s0 s1 s2 s3 s4
    exact ⟨s0.symm.trans t0, s1.symm.trans t1, s2.symm.trans t2, s3.symm.trans t3, s4.symm.trans t4⟩
  choose h0 h1 h2 h3 h4 using hbits
  have hword {v w : Word} (h : ∀ b : Fin 64, v[b] = w[b]) : v = w := BitVec.eq_of_getElem_eq fun i hi => h ⟨i, hi⟩
  exact words_ext (hword h0) (hword h1) (hword h2) (hword h3) (hword h4)

/-- The lines of R69 on the five bits of one lane. -/
def substituteBits (p0 p1 p2 p3 p4 : Bool) : BitVec 5 :=
  let a0 := p0 ^^ p4
  let a2 := p2 ^^ p1
  let a4 := p4 ^^ p3
  let b0 := a0 ^^ (!p1 && a2)
  let b1 := p1 ^^ (!a2 && p3)
  let b2 := a2 ^^ (!p3 && a4)
  let b3 := p3 ^^ (!a4 && a0)
  let b4 := a4 ^^ (!a0 && p1)
  laneOf (b0 ^^ b4) (b1 ^^ b0) (!b2) (b3 ^^ b2) b4

/-- The layer is 64 independent copies of one function of five bits (R70). -/
theorem lane_substitute_eq_bits (S : Words) (b : Fin 64) :
    lane (substitute S) b = substituteBits S.x0[b] S.x1[b] S.x2[b] S.x3[b] S.x4[b] := by
  simp [lane_eq, substitute, substituteBits]

/-- That function is the published table (R71). -/
theorem substituteBits_eq_sboxTable (p0 p1 p2 p3 p4 : Bool) :
    substituteBits p0 p1 p2 p3 p4 = sboxTable[(laneOf p0 p1 p2 p3 p4).toNat] := by
  revert p0 p1 p2 p3 p4; decide

theorem lane_substitute (S : Words) (b : Fin 64) : lane (substitute S) b = sboxTable[(lane S b).toNat] := by
  rw [lane_substitute_eq_bits]
  exact substituteBits_eq_sboxTable ..

theorem sboxTable_bijective : Function.Bijective (fun v : BitVec 5 => sboxTable[v.toNat]) := by decide

/-- Settles O12: the lines of R69 on one lane are the table, by its 32 entries. -/
theorem subsFollowsTheTruthTable : Obligations.SubsFollowsTheTruthTable := ⟨lane_substitute, sboxTable_bijective⟩

theorem substitute_injective : Function.Injective substitute := fun S T h => words_ext_lane fun b => by
  have hb : sboxTable[(lane S b).toNat] = sboxTable[(lane T b).toNat] := by
    rw [← lane_substitute, ← lane_substitute, h]
  exact sboxTable_bijective.injective hb

/-! ### Diffusion, word by word -/

/-- A word XORed with two rotations of itself, both toward bit 0. -/
def xorRotations (a b : BitVec 6) (w : Word) : Word := w ^^^ rotr w a ^^^ rotr w b

theorem diffuseWord_eq (c : Config) (i : Fin 5) :
    diffuseWord c i = xorRotations (rotrAmount c (rotAmounts i).1) (rotrAmount c (rotAmounts i).2) := by
  funext w
  simp only [diffuseWord, xorRotations, rotate_eq_rotr]

theorem xorRotations_xor (a b : BitVec 6) (v w : Word) :
    xorRotations a b (v ^^^ w) = xorRotations a b v ^^^ xorRotations a b w := by
  have hbits (p q r t u v : Bool) : ((p ^^ q) ^^ (r ^^ t) ^^ (u ^^ v)) = ((p ^^ r ^^ u) ^^ (q ^^ t ^^ v)) := by
    revert p q r t u v; decide
  ext i hi
  simp only [xorRotations, rotr_xor, BitVec.getElem_xor, hbits]

theorem xorRotations_zero (a b : BitVec 6) : xorRotations a b 0 = 0 := by
  have h := xorRotations_xor a b 0 0
  rwa [BitVec.xor_self, BitVec.xor_self] at h

theorem rotr_allOnes (n : BitVec 6) : rotr (BitVec.allOnes 64) n = BitVec.allOnes 64 := by
  have hzero : rotr 0#64 n = 0#64 := by
    have h := rotr_xor 0#64 0#64 n
    rwa [BitVec.xor_self, BitVec.xor_self] at h
  rw [← BitVec.not_zero, rotr_not, hzero]

theorem xorRotations_allOnes (a b : BitVec 6) : xorRotations a b (BitVec.allOnes 64) = BitVec.allOnes 64 := by
  rw [xorRotations, rotr_allOnes, rotr_allOnes, BitVec.xor_self, BitVec.zero_xor]

/-- Settles O14: XOR commutes with a rotation, and all-ones is fixed by one; three equal words XOR to one of them. -/
theorem diffIsLinearWithFixedPoints : Obligations.DiffIsLinearWithFixedPoints := by
  intro c i
  rw [diffuseWord_eq]
  exact ⟨xorRotations_xor _ _, xorRotations_zero _ _, xorRotations_allOnes _ _⟩

/-- The map applied twice is the map with both amounts doubled: the mixed terms occur twice and cancel. -/
theorem xorRotations_twice (a b : BitVec 6) (w : Word) :
    xorRotations a b (xorRotations a b w) = xorRotations (a + a) (b + b) w := by
  have hbits (p q r t u v : Bool) : ((p ^^ q ^^ r) ^^ (q ^^ t ^^ u) ^^ (r ^^ u ^^ v)) = (p ^^ t ^^ v) := by
    revert p q r t u v; decide
  ext i hi
  simp only [xorRotations, rotr_xor, rotr_rotr, add_comm b a, BitVec.getElem_xor, hbits]

theorem xorRotations_zero_zero (w : Word) : xorRotations 0#6 0#6 w = w := by
  rw [xorRotations, rotr_zero, BitVec.xor_self, BitVec.zero_xor]

/-- Amounts that vanish when doubled `k` times: the `2^k`-fold map is the identity. -/
theorem xorRotations_injective_of_mul_eq_zero (k : Nat) (a b : BitVec 6) (ha : 2 ^ k * a = 0#6) (hb : 2 ^ k * b = 0#6) :
    Function.Injective (xorRotations a b) := by
  induction k generalizing a b with
  | zero =>
    have ha' : a = 0#6 := by simpa using ha
    have hb' : b = 0#6 := by simpa using hb
    intro v w h
    rwa [ha', hb', xorRotations_zero_zero, xorRotations_zero_zero] at h
  | succ k ih =>
    have hdouble (n : BitVec 6) : 2 ^ k * (n + n) = 2 ^ (k + 1) * n := by ring
    have htwice : xorRotations a b ∘ xorRotations a b = xorRotations (a + a) (b + b) :=
      funext (xorRotations_twice a b)
    have h := ih (a + a) (b + b) (hdouble a ▸ ha) (hdouble b ▸ hb)
    rw [← htwice] at h
    exact h.of_comp

/-- Every 6-bit amount vanishes when doubled six times. -/
theorem xorRotations_injective (a b : BitVec 6) : Function.Injective (xorRotations a b) := by
  have h64 : (2 : BitVec 6) ^ 6 = 0#6 := by decide
  exact xorRotations_injective_of_mul_eq_zero 6 a b (by rw [h64]; exact zero_mul a) (by rw [h64]; exact zero_mul b)

theorem diffuseWord_injective (c : Config) (i : Fin 5) : Function.Injective (diffuseWord c i) := by
  rw [diffuseWord_eq]
  exact xorRotations_injective _ _

theorem diffuse_injective (c : Config) : Function.Injective (diffuse c) := by
  intro S T h
  obtain ⟨h0, h1, h2, h3, h4⟩ := Words.mk.inj h
  exact words_ext (diffuseWord_injective c 0 h0) (diffuseWord_injective c 1 h1) (diffuseWord_injective c 2 h2)
    (diffuseWord_injective c 3 h3) (diffuseWord_injective c 4 h4)

/-- Settles O15: the words are finitely many, so the two injective layers are bijections. -/
theorem layersAreBijections : Obligations.LayersAreBijections := fun c =>
  ⟨addConstant_involutive c, bijective_of_injective substitute_injective, bijective_of_injective (diffuse_injective c)⟩

/-! ### Rounds and permutations -/

theorem roundWords_injective (c : Config) (i : Fin 12) : Function.Injective (roundWords c i) :=
  (diffuse_injective c).comp (substitute_injective.comp (addConstant_involutive c i).injective)

/-- Rounds in a row, whatever their indices. -/
theorem rounds_injective (c : Config) (l : List (Fin 12)) :
    Function.Injective fun S => l.foldl (fun T i => roundWords c i T) S := by
  induction l with
  | nil => exact Function.injective_id
  | cons i l ih => exact ih.comp (roundWords_injective c i)

theorem permute_injective (c : Config) (r : Nat) : Function.Injective (permute c r) := rounds_injective c (roundIndices r)

/-- Settles O16: compositions of the injective layers. -/
theorem permutationIsABijection : Obligations.PermutationIsABijection := fun c =>
  ⟨fun i => bijective_of_injective (roundWords_injective c i),
    fun r _ _ => bijective_of_injective (permute_injective c r)⟩

/-- Settles O22: the schedule is its first `12 − r` indices followed by the `r` that are left. -/
theorem reducedPermutationIsTheEndOfTheFullOne : Obligations.ReducedPermutationIsTheEndOfTheFullOne := by
  intro c S
  refine ⟨rfl, fun r _ => ?_⟩
  have hsplit : roundIndices 12 = schedule.take (12 - r) ++ roundIndices r := (List.take_append_drop _ _).symm
  rw [permute, hsplit, List.foldl_append, permute]

end Sys2Proof.Machine
end

section
/-! PROOFS of the statements about the operations of the engine and the codec, and about the round controller
(40_permutation_engine.md, 41_byte_word_codec.md). -/

namespace Sys2Proof.Machine

/-! ### The operations with an operand, one equation per branch -/

theorem exec_addc_of_lt (s : State) {i : BitVec 4} (h : i.toNat < 12) :
    exec (.addc i) s = .next (s.setX (addConstant s.cfg ⟨i.toNat, h⟩ s.x)) := dif_pos h

theorem exec_addc_of_not_lt (s : State) {i : BitVec 4} (h : ¬ i.toNat < 12) :
    exec (.addc i) s = .refused (.roundIndexOutOfRange i) := dif_neg h

theorem exec_round_of_lt (s : State) {i : BitVec 4} (h : i.toNat < 12) :
    exec (.round i) s = .next (s.setX (roundWords s.cfg ⟨i.toNat, h⟩ s.x)) := dif_pos h

theorem exec_round_of_not_lt (s : State) {i : BitVec 4} (h : ¬ i.toNat < 12) :
    exec (.round i) s = .refused (.roundIndexOutOfRange i) := dif_neg h

theorem exec_perm_of_idle {s : State} {r : BitVec 4} (hr : 1 ≤ r.toNat ∧ r.toNat ≤ 12) (h : s.ridx = 12) :
    exec (.perm r) s = .next (requestPerm r s) := (if_pos hr).trans (if_pos h)

theorem exec_perm_of_running {s : State} {r : BitVec 4} (hr : 1 ≤ r.toNat ∧ r.toNat ≤ 12) (h : ¬ s.ridx = 12) :
    exec (.perm r) s = .refused .engineBusy := (if_pos hr).trans (if_neg h)

theorem exec_perm_out_of_range (s : State) {r : BitVec 4} (hr : ¬ (1 ≤ r.toNat ∧ r.toNat ≤ 12)) :
    exec (.perm r) s = .refused (.roundCountOutOfRange r) := if_neg hr

/-- Settles O10: the branch of `ADDC` with a legal index. -/
theorem addcXorsTheRoundConstantIntoWordTwo : Obligations.AddcXorsTheRoundConstantIntoWordTwo :=
  fun s _ h => exec_addc_of_lt s h

/-- Settles O11: the sequence of lines is the one `substitute` runs. -/
theorem subsRunsTheWordSequence : Obligations.SubsRunsTheWordSequence := by
  intro s
  refine ⟨substitute s.x, rfl, ?_⟩
  rintro a0 a1 a2 a3 a4 rfl rfl rfl rfl rfl
  exact ⟨rfl, rfl, rfl, rfl, rfl⟩

/-- Settles O13: the five lines of `diffuse`, each with its own amounts. -/
theorem diffXorsTwoRotationsOfEachWord : Obligations.DiffXorsTwoRotationsOfEachWord := fun _ => rfl

/-- Settles O17: the three layers in a row are `roundWords`. -/
theorem roundIsTheThreeLayersInOrder : Obligations.RoundIsTheThreeLayersInOrder :=
  fun s _ h => ⟨_, _, _, exec_addc_of_lt s h, rfl, rfl, exec_round_of_lt s h, rfl⟩

/-- Settles O18: the branches of `ADDC` and `ROUND` with an index above 11. -/
theorem roundIndexAboveElevenIsRefused : Obligations.RoundIndexAboveElevenIsRefused :=
  fun s _ h => ⟨exec_addc_of_not_lt s (Nat.not_lt.2 h), exec_round_of_not_lt s (Nat.not_lt.2 h)⟩

/-- Settles O19: the branch of `PERM` that makes the request. -/
theorem permRequestSetsTheFirstRoundIndex : Obligations.PermRequestSetsTheFirstRoundIndex :=
  fun _ _ hs h1 h12 => ⟨_, exec_perm_of_idle ⟨h1, h12⟩ hs, rfl, rfl, rfl⟩

/-! ### Requests -/

/-- The events that a core step adds request `PERM 12` alone (R63: "the driver always presents 12"). -/
theorem CoreEffect.requests {s t : State} (h : CoreEffect s t) :
    ∃ es : List Event, t.events = es ++ s.events ∧ ∀ r : BitVec 4, Event.perm r ∈ es → r = 12 := by
  cases h with
  | round h => exact ⟨[], rfl, by simp⟩
  | stay hr hp => exact ⟨[], rfl, by simp⟩
  | leaveInit hr hp => exact ⟨[], rfl, by simp⟩
  | fullBlock hr hp hb => rw [loadFullBlock_eq]; exact ⟨_, rfl, by simp⟩
  | finalBlock hr hp hb =>
    rw [loadFinalBlock_eq]
    refine ⟨_ :: _, rfl, fun r hr => ?_⟩
    by_cases ht : tailLen s.len = 0 <;> simpa [ht] using hr
  | leaveFinal hr hp => exact ⟨[], rfl, by simp⟩
  | squeeze hr hp => exact ⟨[], rfl, by simp⟩
  | discard hr hp => exact ⟨[], rfl, by simp⟩

/-- Settles O20: the last branch of `PERM`, and the requests of the core row by row. -/
theorem roundCountOutOfRangeIsRefused : Obligations.RoundCountOutOfRangeIsRefused :=
  ⟨fun s _ hr => exec_perm_out_of_range s (by omega), fun _ _ hs => (coreStep_effect hs).requests⟩

/-! ### The rounds that follow a request -/

/-- One more round at the front (R57). -/
theorem permute_succ (c : Config) {r : Nat} (hr : r < 12) (S : Words) :
    permute c (r + 1) S = permute c r (roundWords c ⟨11 - r, by omega⟩ S) := by
  have hindices : roundIndices (r + 1) = ⟨11 - r, by omega⟩ :: roundIndices r := by
    interval_cases r <;> rfl
  rw [permute, hindices, List.foldl_cons, permute]

/-- With `r` rounds pending, `r` core steps make them and leave the engine idle, in every phase (R76, R77). -/
theorem coreRun_rounds {r : Nat} (hr : r ≤ 12) {s : State} (h : s.ridx.val = 12 - r) :
    coreRun r s = .next { s with x := permute s.cfg r s.x, ridx := 12 } := by
  induction r generalizing s with
  | zero =>
    have hridx : s.ridx = 12 := Fin.ext h
    rw [coreRun_zero, ← hridx]
    rfl
  | succ r ih =>
    have hlt : s.ridx.val < 12 := by omega
    have hindex : (⟨s.ridx.val, hlt⟩ : Fin 12) = ⟨11 - r, by omega⟩ := Fin.ext (by simp only; omega)
    rw [coreRun_succ r (coreStep_round hlt), roundStep_eq hlt, ih (by omega) (by simp only; omega),
      permute_succ _ (by omega), hindex]

/-- While rounds are pending each core step moves on to the next (R77). -/
theorem coreRun_rounds_ridx (k : Nat) {s : State} (h : s.ridx.val + k ≤ 12) :
    ∃ u, coreRun k s = .next u ∧ u.ridx.val = s.ridx.val + k := by
  induction k generalizing s with
  | zero => exact ⟨s, rfl, rfl⟩
  | succ k ih =>
    have hlt : s.ridx.val < 12 := by omega
    rw [coreRun_succ k (coreStep_round hlt), roundStep_eq hlt]
    obtain ⟨u, hu, hridx⟩ := ih (s := { s with
      x := roundWords s.cfg ⟨s.ridx.val, hlt⟩ s.x, ridx := ⟨s.ridx.val + 1, Nat.succ_lt_succ hlt⟩ }) (by simp only; omega)
    exact ⟨u, hu, by rw [hridx]; simp only; omega⟩

/-- Settles O21: the request makes `ridx` the first of the last `r` rounds, and each core step is one of them. -/
theorem permRunsTheLastRoundsOfTheSchedule : Obligations.PermRunsTheLastRoundsOfTheSchedule := by
  intro s r hs h1 h12
  refine ⟨requestPerm r s, _, exec_perm_of_idle ⟨h1, h12⟩ hs, coreRun_rounds h12 rfl, ?_, fun k hk => ?_⟩
  · rw [requestPerm_eq, ← hs]
    rfl
  · exact coreRun_rounds_ridx k (s := requestPerm r s) (by rw [requestPerm_eq]; simp only; omega)

/-! ### Frames -/

theorem sameBytes_of_eq {s t : State} (hk : t.key = s.key) (hm : t.msg = s.msg) : SameBytes s t := by
  intro sp a
  cases sp
  · exact congrArg (Memory.read · a) hk
  · exact congrArg (Memory.read · a) hm

/-- Settles O33: every branch that answers is an update of `x`, or the request. -/
theorem engineOperationsFrame : Obligations.EngineOperationsFrame := by
  intro s t i
  refine ⟨?_, fun h => ?_, fun h => ?_⟩
  · rintro (h | h | h)
    · cases h; exact ⟨rfl, sameBytes_of_eq rfl rfl⟩
    · cases h; exact ⟨rfl, sameBytes_of_eq rfl rfl⟩
    · by_cases hi : i.toNat < 12
      · rw [exec_round_of_lt s hi] at h; cases h; exact ⟨rfl, sameBytes_of_eq rfl rfl⟩
      · rw [exec_round_of_not_lt s hi] at h; cases h
  · by_cases hi : i.toNat < 12
    · rw [exec_addc_of_lt s hi] at h; cases h; exact ⟨rfl, sameBytes_of_eq rfl rfl⟩
    · rw [exec_addc_of_not_lt s hi] at h; cases h
  · by_cases hr : 1 ≤ i.toNat ∧ i.toNat ≤ 12
    · by_cases hs : s.ridx = 12
      · rw [exec_perm_of_idle hr hs] at h; cases h; exact ⟨rfl, sameBytes_of_eq rfl rfl⟩
      · rw [exec_perm_of_running hr hs] at h; cases h
    · rw [exec_perm_out_of_range s hr] at h; cases h

/-- Settles O34: each operation is an update of one result wire. -/
theorem codecOperationsFrame : Obligations.CodecOperationsFrame := by
  intro s t n
  refine ⟨?_, fun h => ?_⟩
  · rintro (h | h)
    · cases h; exact ⟨rfl, sameBytes_of_eq rfl rfl⟩
    · cases h; exact ⟨rfl, sameBytes_of_eq rfl rfl⟩
  · cases h; exact ⟨rfl, sameBytes_of_eq rfl rfl⟩

end Sys2Proof.Machine
end

section
/-! PROOFS of the statements about the command and the phase operations (42_mac_driver.md, 30_encoding.md section 1). -/

namespace Sys2Proof.Machine

/-! ### The command -/

/-- Both byte spaces read the same after an accepted command. -/
theorem sameBytes_acceptCommand (s : State) : SameBytes s (acceptCommand s) := by
  rw [acceptCommand_eq]
  exact sameBytes_of_eq rfl rfl

/-- Settles O24: the fields of `acceptCommand`. -/
theorem computeTagStartsAComputation : Obligations.ComputeTagStartsAComputation := by
  intro s hp hk ht
  refine ⟨acceptCommand s, exec_computeTag_of_accepted hp hk ht, ?_⟩
  have hbytes := sameBytes_acceptCommand s
  rw [acceptCommand_eq] at hbytes ⊢
  exact ⟨rfl, rfl, rfl, rfl, rfl, rfl, rfl, rfl, rfl, rfl, rfl, rfl, rfl, rfl, rfl, hbytes⟩

/-! ### The phase operations, one equation per row of R100 -/

section
variable {s : State}

theorem exec_init_round (h : s.ridx.val < 12) : exec .init s = .next (roundStep s) := if_pos h

theorem exec_init_idle (h : ¬ s.ridx.val < 12) : exec .init s = .next (s.setPhase .absorbFull) := if_neg h

theorem exec_absorbFinal_round (h : s.ridx.val < 12) : exec .absorbFinal s = .next (roundStep s) := if_pos h

theorem exec_absorbFinal_idle (h : ¬ s.ridx.val < 12) : exec .absorbFinal s = .next (s.setPhase .squeeze) := if_neg h

theorem exec_absorbFull_round (h : s.ridx.val < 12) : exec .absorbFull s = .next (roundStep s) := if_pos h

theorem exec_absorbFull_block (h : ¬ s.ridx.val < 12) (hb : s.blk < s.len / 32) :
    exec .absorbFull s = .next (loadFullBlock s) := (if_neg h).trans (if_pos hb)

theorem exec_absorbFull_last (h : ¬ s.ridx.val < 12) (hb : ¬ s.blk < s.len / 32) :
    exec .absorbFull s = .next (loadFinalBlock s) := (if_neg h).trans (if_neg hb)

/-- The round step, with its two updates written out (R77). -/
theorem roundStep_eq_set (h : s.ridx.val < 12) : roundStep s =
    (s.setX (roundWords s.cfg ⟨s.ridx.val, h⟩ s.x)).setRidx ⟨s.ridx.val + 1, Nat.succ_lt_succ h⟩ := roundStep_eq h

end

/-- Settles O27: `IDLE` answers the state itself and `DONE` its discard. -/
theorem idleAndDoneOperations : Obligations.IdleAndDoneOperations := fun _ => ⟨rfl, rfl⟩

/-- Settles O28: the two rows of each operation. -/
theorem initAndAbsorbFinalRunRoundsThenMoveOn : Obligations.InitAndAbsorbFinalRunRoundsThenMoveOn := by
  intro s
  refine ⟨fun _ => ⟨fun h => ?_, fun h => exec_init_idle ((ridx_eq_twelve_iff _).1 h)⟩,
    fun _ => ⟨fun h => ?_, fun h => exec_absorbFinal_idle ((ridx_eq_twelve_iff _).1 h)⟩⟩
  · rw [exec_init_round h, roundStep_eq_set h]
  · rw [exec_absorbFinal_round h, roundStep_eq_set h]

/-- Settles O29: a round, or the load of a complete block, whose chunks stand at `32·blk + 8j`. -/
theorem absorbFullRunsRoundsAndAbsorbsBlocks : Obligations.AbsorbFullRunsRoundsAndAbsorbsBlocks := by
  intro s _
  refine ⟨fun h => ?_, fun hr hb => ?_⟩
  · rw [exec_absorbFull_round h, roundStep_eq_set h]
  · refine ⟨_, exec_absorbFull_block ((ridx_eq_twelve_iff _).1 hr) hb, ?_⟩
    rw [loadFullBlock_eq]
    exact ⟨rfl, rfl, rfl, rfl⟩

/-- Byte `k` of the padded final block: the tail, then `0x80`, then zeros (R52, R95). -/
theorem finalBlock_getElem (m : Memory) (len k : Nat) (hk : k < 32) : (finalBlock m len)[k] =
    if k < len % 32 then m.read (32 * (len / 32) + k) else if k = len % 32 then 0x80 else 0x00 := by
  rw [finalBlock, padBlock_getElem _ _ k hk]
  by_cases h : k < tailLen len
  · rw [dif_pos h, memRead_getElem]
    exact (if_pos h).symm
  · rw [dif_neg h]
    exact (if_neg h).symm

/-- Settles O30: the load of the final block, whose bytes `finalBlock_getElem` gives. -/
theorem finalBlockLoadPadsAbsorbsAndSeparates : Obligations.FinalBlockLoadPadsAbsorbsAndSeparates := by
  intro s _ hr hb
  refine ⟨_, exec_absorbFull_last ((ridx_eq_twelve_iff _).1 hr) (by omega), ?_⟩
  rw [loadFinalBlock_eq]
  exact ⟨fun k => finalBlock_getElem s.msg s.len k.val k.isLt, rfl, rfl, rfl, rfl⟩

/-! ### Padding in word terms -/

/-- The bits of a padded tail of zero bytes: of byte `t` the top one, and no other. -/
theorem padBlock_zeros_getLsbD (t k j : Nat) (hk : k < 32) (hj : j < 8) :
    (padBlock t (Vector.replicate t 0))[k].getLsbD j = decide (k = t ∧ j = 7) := by
  have hpad : padByte.getLsbD j = decide (j = 7) := by
    revert hj; revert j; decide
  rw [padBlock_getElem t _ k hk]
  by_cases hlt : k < t
  · simp [hlt, Nat.ne_of_lt hlt]
  · by_cases heq : k = t
    · simp [heq, hpad]
    · simp [hlt, heq]

/-- Chunk `j` of that block as a word: one bit, where the padding byte falls into the chunk (R52). -/
theorem b2w_blockChunk_padBlock_zeros (t : Fin 32) (j : Fin 4) :
    b2w (blockChunk (padBlock t.val (Vector.replicate t.val 0)) j) =
      if j.val = t.val / 8 then BitVec.twoPow 64 (63 - 8 * (t.val % 8)) else 0#64 := by
  have ht := t.isLt
  have hj := j.isLt
  refine BitVec.eq_of_getLsbD_eq fun i hi => ?_
  rw [b2w_getLsbD _ i hi, blockChunk_getElem _ j _ (by omega), padBlock_zeros_getLsbD _ _ _ (by omega) (by omega)]
  split
  · rw [BitVec.getLsbD_twoPow, ← Bool.decide_and]
    exact decide_eq_decide.2 (by omega)
  · rw [BitVec.getLsbD_zero]
    exact decide_eq_false (by omega)

/-- An absorption XORs chunk `j` into word `j` (R51). -/
theorem absorbBlock_get (S : Words) (b : Vector Byte 32) (j : Fin 4) :
    (absorbBlock S b).get j.castSucc = S.get j.castSucc ^^^ b2w (blockChunk b j) := by
  fin_cases j <;> rfl

/-- An absorption leaves word 4 (R51). -/
theorem absorbBlock_get_last (S : Words) (b : Vector Byte 32) : (absorbBlock S b).get 4 = S.get 4 := rfl

/-- Settles O31: the padded zeros are one bit in one chunk, and zero in the others. -/
theorem paddingFlipsOneBitOfTheRate : Obligations.PaddingFlipsOneBitOfTheRate := by
  intro S t i
  cases i using Fin.lastCases with
  | last =>
    have ht := t.isLt
    rw [if_neg (by simp only [Fin.val_last]; omega)]
    exact absorbBlock_get_last S _
  | cast j =>
    rw [absorbBlock_get, b2w_blockChunk_padBlock_zeros, Fin.val_castSucc]
    split
    · rfl
    · exact BitVec.xor_zero

/-! ### Tag extraction -/

/-- The first half of a tag is word 0, most significant byte first (R54). -/
theorem tagBytes_low (w0 w1 : Word) (k : Fin 8) : (tagBytes w0 w1)[k.val] = w0.extractLsb' (56 - 8 * k.val) 8 := by
  rw [tagBytes_getElem, dif_pos k.isLt, w2b_getElem]

/-- The second half of a tag is word 1, most significant byte first (R54). -/
theorem tagBytes_high (w0 w1 : Word) (k : Fin 8) :
    (tagBytes w0 w1)[8 + k.val] = w1.extractLsb' (56 - 8 * k.val) 8 := by
  rw [tagBytes_getElem, dif_neg (by omega), w2b_getElem, Nat.add_sub_cancel_left]

/-- `SQUEEZE` as four updates (R96, R97). -/
theorem exec_squeeze_eq_set (s : State) : exec .squeeze s = .next ((((s.setTag (tagBytes s.x.x0 s.x.x1)).setX
    Words.zero).setBuf (Vector.replicate 32 0)).setPhase .done) := by
  show execSqueeze s = _
  rw [execSqueeze_eq]
  generalize tagBytes s.x.x0 s.x.x1 = T
  rfl

/-- Settles O32: the two halves of the tag are `W2B` of words 0 and 1. -/
theorem squeezeWritesTheTagAndDiscards : Obligations.SqueezeWritesTheTagAndDiscards := by
  intro s
  refine ⟨_, exec_squeeze_eq_set s, fun k => ?_, rfl⟩
  simp only [State.setPhase_tag, State.setBuf_tag, State.setX_tag, State.setTag_tag]
  exact ⟨tagBytes_low _ _ k, tagBytes_high _ _ k⟩

/-! ### Frames -/

theorem exec_computeTag_frame {s t : State} (h : exec .computeTag s = .next t) :
    t.buf = s.buf ∧ t.keyLen = s.keyLen ∧ t.tagCap = s.tagCap ∧ t.msgLen = s.msgLen ∧ t.codec = s.codec ∧
      t.inputs = s.inputs ∧ t.reads = s.reads ∧ t.cfg = s.cfg ∧ SameBytes s t := by
  change execComputeTag s = _ at h
  rcases execComputeTag_cases s with ⟨-, hn⟩ | ⟨-, e, hn⟩ | ⟨-, -, -, hn⟩ <;> rw [hn] at h <;> cases h
  · exact ⟨rfl, rfl, rfl, rfl, rfl, rfl, rfl, rfl, sameBytes_of_eq rfl rfl⟩
  · exact ⟨rfl, rfl, rfl, rfl, rfl, rfl, rfl, rfl, sameBytes_of_eq rfl rfl⟩
  · rw [acceptCommand_eq]
    exact ⟨rfl, rfl, rfl, rfl, rfl, rfl, rfl, rfl, sameBytes_of_eq rfl rfl⟩

/-- `INIT` and `ABSORB_FINAL`: a round step, or the next phase. -/
theorem exec_init_or_absorbFinal_frame {s t : State} (h : exec .init s = .next t ∨ exec .absorbFinal s = .next t) :
    t = ((s.setX t.x).setRidx t.ridx).setPhase t.phase ∧ SameBytes s t := by
  by_cases hr : s.ridx.val < 12
  · have ht : t = roundStep s := by
      rw [exec_init_round hr, exec_absorbFinal_round hr] at h
      rcases h with h | h <;> cases h <;> rfl
    rw [ht, roundStep_eq hr]
    exact ⟨rfl, sameBytes_of_eq rfl rfl⟩
  · rw [exec_init_idle hr, exec_absorbFinal_idle hr] at h
    rcases h with h | h <;> cases h <;> exact ⟨rfl, sameBytes_of_eq rfl rfl⟩

theorem exec_absorbFull_frame {s t : State} (h : exec .absorbFull s = .next t) :
    t = (((((s.setX t.x).setRidx t.ridx).setBlk t.blk).setBuf t.buf).setPhase t.phase).setEvents t.events ∧
      t.x.x4 = (if s.ridx.val < 12 then t.x.x4 else if s.blk < s.len / 32 then s.x.x4 else s.x.x4 ^^^ 1) ∧ SameBytes s t := by
  by_cases hr : s.ridx.val < 12
  · rw [exec_absorbFull_round hr] at h
    cases h
    rw [if_pos hr, roundStep_eq hr]
    exact ⟨rfl, rfl, sameBytes_of_eq rfl rfl⟩
  · rw [if_neg hr]
    by_cases hb : s.blk < s.len / 32
    · rw [exec_absorbFull_block hr hb] at h
      cases h
      rw [if_pos hb, loadFullBlock_eq]
      exact ⟨rfl, rfl, sameBytes_of_eq rfl rfl⟩
    · rw [exec_absorbFull_last hr hb] at h
      cases h
      rw [if_neg hb, loadFinalBlock_eq]
      exact ⟨rfl, rfl, sameBytes_of_eq rfl rfl⟩

theorem exec_squeeze_frame {s t : State} (h : exec .squeeze s = .next t) :
    t = (((s.setTag t.tag).setX t.x).setBuf t.buf).setPhase t.phase ∧ SameBytes s t := by
  rw [exec_squeeze_eq_set] at h
  generalize tagBytes s.x.x0 s.x.x1 = T at h
  cases h
  exact ⟨rfl, sameBytes_of_eq rfl rfl⟩

theorem exec_done_frame {s t : State} (h : exec .done s = .next t) :
    t = (s.setX t.x).setBuf t.buf ∧ SameBytes s t := by
  cases h
  exact ⟨rfl, sameBytes_of_eq rfl rfl⟩

/-- Settles O35: the frames of the operations, one by one. -/
theorem driverOperationsFrame : Obligations.DriverOperationsFrame := by
  intro s t
  refine ⟨exec_computeTag_frame, exec_init_or_absorbFinal_frame, exec_absorbFull_frame, exec_squeeze_frame,
    exec_done_frame, fun h => ?_⟩
  cases h
  rfl

end Sys2Proof.Machine
end

section
/-! PROOFS of the statements about the step (10_state.md sections 2, 4 and 5, 30_encoding.md section 2) and about what
a core step depends on (42_mac_driver.md section 3). -/

namespace Sys2Proof.Machine

/-! ### The step by what is pending -/

section
variable {s : State} {i : Input} {rest : List Input}

theorem step_of_none (h : s.inputs = []) : step s = coreStep s := by
  simp only [step, nextStep, h]

theorem step_of_waiting (h : s.inputs = i :: rest) (hr : i.ready s = false) : step s = coreStep s := by
  simp [step, nextStep, h, hr]

theorem step_of_ready (h : s.inputs = i :: rest) (hr : i.ready s = true) : step s = takeInput i (s.setInputs rest) := by
  simp [step, nextStep, h, hr]

end

theorem runSelect_ok {w : Select} {i : Instr} (h : decode w = .ok i) (s : State) : runSelect w s = exec i s := by
  simp only [runSelect, h]

theorem runSelect_rejected {w : Select} {e : DecodeError} (h : decode w = .rejected e) (s : State) :
    runSelect w s = .refused (refusalOf e) := by
  simp only [runSelect, h]

theorem writeCmd_ok {v : BitVec 8} {i : Instr} (h : decode (.hostcmd v) = .ok i) (s : State) :
    writeCmd v s = exec i s := by
  simp only [writeCmd, h]

theorem coreStep_ok {s : State} {i : Instr} (h : decode (fetch s) = .ok i) :
    coreStep s = onNext (advance s) (exec i s) := by
  rw [coreStep, runSelect_ok h]

theorem fetch_round {s : State} (h : s.ridx.val < 12) : fetch s = .rstep (0b11#2 ++ BitVec.ofNat 4 s.ridx.val) := if_pos h

theorem fetch_phase {s : State} (h : ¬ s.ridx.val < 12) : fetch s = .phase s.phase.code := if_neg h

theorem advance_round {s : State} (h : s.ridx.val < 12) (t : State) :
    advance s t = t.setRidx ⟨s.ridx.val + 1, Nat.succ_lt_succ h⟩ := by
  rw [advance, if_pos h, nextRidx, dif_pos h]

theorem advance_phase {s : State} (h : ¬ s.ridx.val < 12) (t : State) : advance s t = t := if_neg h

/-- A host move is ready at once or when the core has no step. -/
theorem ready_host {b : Bool} {s : State} (h : b = true ∨ quiescent s = true) (m : HostMove) :
    (Input.host b m).ready s = true := by
  simpa [Input.ready] using h

/-- Settles O36: what is pending decides what is taken, and the decoder's equations what it runs. -/
theorem stepRunsTheDecodedOperation : Obligations.StepRunsTheDecodedOperation := by
  intro s i inp rest
  refine ⟨fun hi hd => ?_, fun hi hd => ?_, fun b m hi hr => step_of_ready hi (ready_host hr m), fun b v hi hr hd => ?_,
    fun w hi hq => ⟨fun hd => ?_, fun hw => ?_⟩, fun l x hi hq => ⟨fun hd => ?_, fun hl hx => ?_⟩,
    fun f n hi hq => ⟨fun hd => ?_, fun hf => ?_⟩, fun b w hi => step_of_ready hi rfl,
    fun h => ⟨fetch_round h, advance_round h⟩, fun h => ?_⟩
  · rcases hi with hi | ⟨hi, hr⟩
    · rw [step_of_none hi, coreStep_ok hd]
    · rw [step_of_waiting hi hr, coreStep_ok hd]
  · rw [step_of_ready hi rfl]
    exact coreStep_ok (s := s.setInputs rest) hd
  · rw [step_of_ready hi (ready_host hr _)]
    exact writeCmd_ok hd _
  · rw [step_of_ready hi hq]
    exact runSelect_ok hd _
  · rw [step_of_ready hi hq]
    exact runSelect_rejected (decode_engreq_rejected hw) _
  · rw [step_of_ready hi hq]
    exact runSelect_ok hd _
  · rw [step_of_ready hi hq]
    exact runSelect_rejected (decode_rstep_rejected hl hx) _
  · rw [step_of_ready hi hq]
    exact runSelect_ok hd _
  · rw [step_of_ready hi hq]
    subst hf
    exact runSelect_rejected (decode_codec_rejected n) _
  · have hidle := (ridx_eq_twelve_iff _).1 h
    exact ⟨fetch_phase hidle, advance_phase hidle⟩

/-! ### The placed word -/

/-- Two states hold the same but for the control of the core and the instrumentation. -/
def SameData (s t : State) : Prop :=
  t.inputs = s.inputs ∧ t.key = s.key ∧ t.msg = s.msg ∧ t.keyLen = s.keyLen ∧ t.tagCap = s.tagCap ∧
  t.msgLen = s.msgLen ∧ t.x = s.x ∧ t.buf = s.buf ∧ t.tag = s.tag ∧ t.err = s.err ∧ t.len = s.len ∧ t.blk = s.blk ∧
  t.cfg = s.cfg

theorem sameData_refl (s : State) : SameData s s :=
  ⟨rfl, rfl, rfl, rfl, rfl, rfl, rfl, rfl, rfl, rfl, rfl, rfl, rfl⟩

/-- Placing a word at an internal select first stops the core, which writes `phase` and `ridx` alone. -/
theorem sameData_madeQuiescent (s : State) : SameData s ((placeSelect.madeQuiescent s).setInputs s.inputs) := by
  unfold placeSelect.madeQuiescent
  split <;> exact sameData_refl s

theorem quiescent_madeQuiescent (s : State) (l : List Input) :
    quiescent ((placeSelect.madeQuiescent s).setInputs l) = true := by
  unfold placeSelect.madeQuiescent quiescent
  cases hb : s.phase.busy
  · simp [hb]
  · simp [Phase.busy]

/-- A word at an internal select, placed with the core stopped, runs its operation. -/
theorem step_placed_internal {s : State} {inp : Input} {w : Select} {i : Instr} (hd : decode w = .ok i)
    (hready : ∀ t, inp.ready t = quiescent t) (htake : ∀ t, takeInput inp t = runSelect w t) :
    step ((placeSelect.madeQuiescent s).setInputs (inp :: s.inputs)) =
      exec i ((placeSelect.madeQuiescent s).setInputs s.inputs) := by
  rw [step_of_ready rfl ((hready _).trans (quiescent_madeQuiescent s _)), htake, runSelect_ok hd]
  rfl

/-- Whatever format the word has, it is placed where the next step takes it. -/
theorem step_placeSelect {w : Select} {i : Instr} (hd : decode w = .ok i) (s : State) :
    ∃ s', step (placeSelect w s) = exec i s' ∧ SameData s s' := by
  cases w with
  | hostcmd op => exact ⟨s, writeCmd_ok hd s, sameData_refl s⟩
  | phase ph =>
    obtain ⟨p, hcode, hop⟩ : ∃ p, phaseOfCode ph = some p ∧ i = phaseOp p := by
      change decodePhase ph = .ok i at hd
      unfold decodePhase at hd
      split_ifs at hd <;> cases hd <;> subst ph
      · exact ⟨.idle, rfl, rfl⟩
      · exact ⟨.init, rfl, rfl⟩
      · exact ⟨.absorbFull, rfl, rfl⟩
      · exact ⟨.absorbFinal, rfl, rfl⟩
      · exact ⟨.squeeze, rfl, rfl⟩
      · exact ⟨.done, rfl, rfl⟩
    refine ⟨(s.setPhase p).setRidx 12, ?_, sameData_refl s⟩
    have hplaced : placeSelect (.phase ph) s = ((s.setPhase p).setRidx 12).setInputs (.pass :: s.inputs) := by
      simp only [placeSelect, hcode]
    rw [hplaced, hop]
    exact coreStep_phase (s := (s.setPhase p).setRidx 12) (Nat.lt_irrefl 12)
  | engreq r =>
    exact ⟨_, step_placed_internal (inp := .engreq r) hd (fun _ => rfl) (fun _ => rfl), sameData_madeQuiescent s⟩
  | rstep c =>
    exact ⟨_, step_placed_internal (inp := .rstep c) hd (fun _ => rfl) (fun _ => rfl), sameData_madeQuiescent s⟩
  | codec c =>
    exact ⟨_, step_placed_internal (inp := .codec c) hd (fun _ => rfl) (fun _ => rfl), sameData_madeQuiescent s⟩

theorem decodeTableWord_eq_some {nbits w : Nat} {i : Instr} (h : decodeTableWord nbits w = some i) :
    decode (selectOfTableWord nbits w) = .ok i := by
  unfold decodeTableWord at h
  split at h
  · next hd => cases h; exact hd
  · cases h

/-- Settles O37: the numbered word is the select word it stands for, and that is placed to run next. -/
theorem placedWordRunsNext : Obligations.PlacedWordRunsNext :=
  fun s _ _ _ h => step_placeSelect (decodeTableWord_eq_some h) s

/-! ### What a core step depends on -/

/-- Other values in all that the host may write while the core is busy (R27, R33, R45), and in `ERR`. -/
def hostWrites (k : Memory) (a b : BitVec 8) (n : Nat) (e : ErrCode) (s : State) : State :=
  { s with key := k, keyLen := a, tagCap := b, msgLen := n, err := e }

section
variable (k : Memory) (a b : BitVec 8) (n : Nat) (e : ErrCode) (s : State)

theorem hostWrites_eq_set :
    hostWrites k a b n e s = ((((s.setKey k).setKeyLen a).setTagCap b).setMsgLen n).setErr e := by
  simp only [hostWrites, State.setKey, State.setKeyLen, State.setTagCap, State.setMsgLen, State.setErr]

@[simp] theorem hostWrites_x : (hostWrites k a b n e s).x = s.x := rfl
@[simp] theorem hostWrites_phase : (hostWrites k a b n e s).phase = s.phase := rfl
@[simp] theorem hostWrites_blk : (hostWrites k a b n e s).blk = s.blk := rfl
@[simp] theorem hostWrites_len : (hostWrites k a b n e s).len = s.len := rfl
@[simp] theorem hostWrites_msg : (hostWrites k a b n e s).msg = s.msg := rfl
@[simp] theorem hostWrites_events : (hostWrites k a b n e s).events = s.events := rfl

/-- The load of a complete block reads the message alone (R94). -/
theorem loadFullBlock_hostWrites :
    loadFullBlock (hostWrites k a b n e s) = hostWrites k a b n e (loadFullBlock s) := by
  simp only [loadFullBlock_eq, hostWrites_x, hostWrites_blk, hostWrites_msg, hostWrites_events]
  generalize absorbChunks s.x _ _ _ _ = X
  rfl

/-- The final-block load reads the message alone (R95). -/
theorem loadFinalBlock_hostWrites :
    loadFinalBlock (hostWrites k a b n e s) = hostWrites k a b n e (loadFinalBlock s) := by
  simp only [loadFinalBlock_eq, hostWrites_x, hostWrites_len, hostWrites_msg, hostWrites_events]
  generalize finalBlock s.msg s.len = B
  rfl

/-- The tag is made of words 0 and 1 alone (R96). -/
theorem exec_squeeze_hostWrites :
    exec .squeeze (hostWrites k a b n e s) = onNext (hostWrites k a b n e) (exec .squeeze s) := by
  simp only [exec_squeeze_eq_set, hostWrites_x]
  generalize tagBytes s.x.x0 s.x.x1 = T
  rfl

/-- The core's step commutes with those writes: its row depends on `phase`, `ridx`, `blk` and `LEN`, and no row reads or
writes what they write. -/
theorem coreStep_hostWrites :
    coreStep (hostWrites k a b n e s) = onNext (hostWrites k a b n e) (coreStep s) := by
  by_cases h : s.ridx.val < 12
  · have h' : (hostWrites k a b n e s).ridx.val < 12 := h
    rw [coreStep_round h, coreStep_round h', roundStep_eq h, roundStep_eq h']
    rfl
  · have h' : ¬ (hostWrites k a b n e s).ridx.val < 12 := h
    rw [coreStep_phase h, coreStep_phase h', hostWrites_phase]
    cases s.phase with
    | idle => rfl
    | init => rw [phaseOp, exec_init_idle h, exec_init_idle h']; rfl
    | absorbFull =>
      by_cases hb : s.blk < s.len / 32
      · rw [phaseOp, exec_absorbFull_block h hb, exec_absorbFull_block h' hb, loadFullBlock_hostWrites, onNext_next]
      · rw [phaseOp, exec_absorbFull_last h hb, exec_absorbFull_last h' hb, loadFinalBlock_hostWrites, onNext_next]
    | absorbFinal => rw [phaseOp, exec_absorbFinal_idle h, exec_absorbFinal_idle h']; rfl
    | squeeze => rw [phaseOp, exec_squeeze_hostWrites]
    | done => rfl

end

/-- Settles O53: the frame of a core step, and that it commutes with the host's writes. -/
theorem coreStepIgnoresWhatTheHostMayWriteWhileBusy : Obligations.CoreStepIgnoresWhatTheHostMayWriteWhileBusy := by
  intro s k a b n e
  refine ⟨fun t hs => ?_, ?_⟩
  · have h := coreStep_frame hs
    exact ⟨h.keyLen, h.tagCap, h.msgLen, h.err, h.len, h.key, h.msg, h.cfg⟩
  · simp only [← hostWrites_eq_set]
    exact coreStep_hostWrites k a b n e s

/-- The control a core step leaves, as a function of the control it finds (R100): `phase`, `blk`, `ridx` and `LEN`. -/
def nextControl (p : Phase) (blk : Nat) (ridx : Fin 13) (len : Nat) : Phase × Nat × Fin 13 × Nat :=
  if ridx.val < 12 then (p, blk, nextRidx ridx, len)
  else match p with
    | .idle => (.idle, blk, ridx, len)
    | .init => (.absorbFull, blk, ridx, len)
    | .absorbFull => if blk < numBlocks len then (.absorbFull, blk + 1, 0, len) else (.absorbFinal, blk, 0, len)
    | .absorbFinal => (.squeeze, blk, ridx, len)
    | .squeeze => (.done, blk, ridx, len)
    | .done => (.done, blk, ridx, len)

theorem coreStep_control (s : State) :
    ∃ t, coreStep s = .next t ∧ (t.phase, t.blk, t.ridx, t.len) = nextControl s.phase s.blk s.ridx s.len := by
  rcases coreStep_cases s with ⟨h, hs⟩ | ⟨hr, hs⟩
  · refine ⟨_, hs, ?_⟩
    simp only [nextControl, if_pos h, roundStep, dif_pos h]
    rfl
  · have h := (ridx_eq_twelve_iff _).1 hr
    simp only [nextControl, if_neg h]
    rcases hs with ⟨hp, hs⟩ | ⟨hp, hs⟩ | ⟨hp, hb, hs⟩ | ⟨hp, hb, hs⟩ | ⟨hp, hs⟩ | ⟨hp, hs⟩ | ⟨hp, hs⟩ <;>
      refine ⟨_, hs, ?_⟩ <;> rw [hp]
    · rfl
    · rw [loadFullBlock_eq]; simp [hb, hp]
    · rw [loadFinalBlock_eq]; simp [hb]
    · rfl
    · rw [writeTag_eq, discardState_eq]; rfl
    · rw [show (discardState s).phase = .done from hp]; rfl

/-- Settles O55: both next controls are the same function of the same control. -/
theorem controlDependsOnNoDataValue : Obligations.ControlDependsOnNoDataValue := by
  intro s t h
  obtain ⟨hphase, hblk, hridx, hlen⟩ := h
  obtain ⟨s', hs, hs'⟩ := coreStep_control s
  obtain ⟨t', ht, ht'⟩ := coreStep_control t
  have hsame : (s'.phase, s'.blk, s'.ridx, s'.len) = (t'.phase, t'.blk, t'.ridx, t'.len) := by
    rw [hs', ht', hphase, hblk, hridx, hlen]
  simp only [Prod.mk.injEq] at hsame
  exact ⟨s', t', hs, ht, hsame⟩

end Sys2Proof.Machine
end

section
/-! PROOFS of the statements about a whole computation (42_mac_driver.md sections 3 and 4, 70_reset_and_hazards.md
section 4): its length, its tag, and what it reads. -/

namespace Sys2Proof.Machine

/-! ### A busy core takes one step fewer each time -/

/-- A computation has been started, and its tag is extracted with the engine idle only (R99, R20). -/
def Started (s : State) : Prop := s.phase ≠ .idle ∧ (s.phase = .squeeze → s.ridx = 12)

theorem started_of_inv {s : State} (h : Inv s) (hb : s.phase.busy = true) : Started s := by
  obtain ⟨hphase, -, -, -⟩ := h
  refine ⟨fun hp => ?_, fun hp => ?_⟩
  · rw [hp] at hb
    cases hb
  · obtain ⟨-, hridx, -⟩ := (phaseInv_squeeze hp).1 hphase
    exact hridx

/-! The steps left, phase by phase (R101). -/

section
variable {s : State}

theorem stepsLeft_init (hp : s.phase = .init) :
    stepsLeft s = 12 - s.ridx.val + 1 + 13 * (numBlocks s.len - s.blk) + 15 := by
  simp only [stepsLeft, hp]

theorem stepsLeft_absorbFull (hp : s.phase = .absorbFull) :
    stepsLeft s = 12 - s.ridx.val + 13 * (numBlocks s.len - s.blk) + 15 := by
  simp only [stepsLeft, hp]

theorem stepsLeft_absorbFinal (hp : s.phase = .absorbFinal) : stepsLeft s = 12 - s.ridx.val + 2 := by
  simp only [stepsLeft, hp]

theorem stepsLeft_squeeze (hp : s.phase = .squeeze) : stepsLeft s = 1 := by
  simp only [stepsLeft, hp]

/-- A started computation is over exactly when no step is left. -/
theorem busy_iff_stepsLeft_pos : s.phase.busy = true ↔ 0 < stepsLeft s := by
  cases hp : s.phase with
  | idle => simp [stepsLeft, hp, Phase.busy]
  | init => simp [stepsLeft_init hp, Phase.busy]
  | absorbFull => simp [stepsLeft_absorbFull hp, Phase.busy]
  | absorbFinal => simp [stepsLeft_absorbFinal hp, Phase.busy]
  | squeeze => simp [stepsLeft_squeeze hp, Phase.busy]
  | done => simp [stepsLeft, hp, Phase.busy]

/-- A round leaves one step fewer in every busy phase. -/
theorem stepsLeft_round (hb : s.phase.busy = true) (hp : s.phase ≠ .squeeze) (h : s.ridx.val < 12) (X : Words) :
    stepsLeft { s with x := X, ridx := ⟨s.ridx.val + 1, Nat.succ_lt_succ h⟩ } + 1 = stepsLeft s := by
  rcases (busy_eq_true_iff _).1 hb with hq | hq | hq | hq
  · rw [stepsLeft_init hq, stepsLeft_init (by exact hq)]
    simp only
    omega
  · rw [stepsLeft_absorbFull hq, stepsLeft_absorbFull (by exact hq)]
    simp only
    omega
  · rw [stepsLeft_absorbFinal hq, stepsLeft_absorbFinal (by exact hq)]
    simp only
    omega
  · exact absurd hq hp

/-- A core step of a busy core, row by row. -/
theorem CoreEffect.stepsLeft_succ {t : State} (ht : CoreEffect s t) (hs : Started s) (hb : s.phase.busy = true) :
    stepsLeft t + 1 = stepsLeft s ∧ Started t := by
  obtain ⟨hstart, hidle⟩ := hs
  cases ht with
  | round h =>
    have hp : s.phase ≠ .squeeze := fun hp => (ridx_eq_twelve_iff _).1 (hidle hp) h
    exact ⟨stepsLeft_round hb hp h _, hstart, fun hq => absurd hq hp⟩
  | stay hr hp => exact absurd hp hstart
  | leaveInit hr hp =>
    rw [stepsLeft_init hp, stepsLeft_absorbFull rfl]
    simp only [State.setPhase_ridx, State.setPhase_len, State.setPhase_blk, hr]
    exact ⟨by omega, nofun, nofun⟩
  | fullBlock hr hp hb' =>
    rw [loadFullBlock_eq, stepsLeft_absorbFull hp, stepsLeft_absorbFull (by exact hp)]
    simp only [hr]
    refine ⟨?_, hstart, fun hq => ?_⟩
    · simp only [Fin.isValue, Fin.val_zero]
      omega
    · rw [hp] at hq
      cases hq
  | finalBlock hr hp hb' =>
    rw [loadFinalBlock_eq, stepsLeft_absorbFull hp, stepsLeft_absorbFinal rfl]
    refine ⟨?_, nofun, nofun⟩
    simp only [hr, Fin.isValue, Fin.val_zero]
    omega
  | leaveFinal hr hp =>
    rw [stepsLeft_absorbFinal hp, stepsLeft_squeeze rfl, hr]
    exact ⟨rfl, nofun, fun _ => hr⟩
  | squeeze hr hp =>
    rw [stepsLeft_squeeze hp]
    exact ⟨rfl, nofun, nofun⟩
  | discard hr hp =>
    rw [hp] at hb
    cases hb

end

/-- Any number of core steps up to those left. -/
theorem coreRun_stepsLeft (k : Nat) {s : State} (hs : Started s) (hk : k ≤ stepsLeft s) :
    ∃ u, coreRun k s = .next u ∧ Started u ∧ stepsLeft u + k = stepsLeft s := by
  induction k generalizing s with
  | zero => exact ⟨s, rfl, hs, rfl⟩
  | succ k ih =>
    have hb : s.phase.busy = true := busy_iff_stepsLeft_pos.2 (by omega)
    obtain ⟨t, ht⟩ := coreStep_next s
    obtain ⟨hleft, hstarted⟩ := (coreStep_effect ht).stepsLeft_succ hs hb
    obtain ⟨u, hu, hu', hsum⟩ := ih hstarted (by omega)
    exact ⟨u, by rw [coreRun_succ k ht, hu], hu', by omega⟩

/-- A started computation with no step left is over. -/
theorem done_of_started {s : State} (hs : Started s) (h : stepsLeft s = 0) : s.phase = .done := by
  have hb : s.phase.busy = false := by
    rw [Bool.eq_false_iff, ne_eq, busy_iff_stepsLeft_pos]
    omega
  obtain ⟨hstart, -⟩ := hs
  exact ((busy_eq_false_iff _).1 hb).resolve_left hstart

/-- Settles O43: the steps left fall by one at each core step, and none is left in `DONE` alone. -/
theorem busyCoreReachesDone : Obligations.BusyCoreReachesDone := by
  intro s hinv hb
  have hs : Started s := started_of_inv hinv hb
  constructor
  · obtain ⟨t, ht⟩ := coreStep_next s
    exact ⟨t, ht, ((coreStep_effect ht).stepsLeft_succ hs hb).1⟩
  · obtain ⟨u, hu, hu', hsum⟩ := coreRun_stepsLeft (stepsLeft s) hs le_rfl
    exact ⟨u, hu, done_of_started hu' (by omega)⟩

/-! ### The run of one computation, stage by stage -/

theorem coreRun_one (s : State) : coreRun 1 s = coreStep s := by
  obtain ⟨t, ht⟩ := coreStep_next s
  rw [ht]
  exact coreRun_succ 0 ht

/-- `INIT`: the 12 rounds of the request, and the step into `ABSORB_FULL` (T1, T2). -/
theorem coreRun_init {s : State} (hp : s.phase = .init) (hr : s.ridx = 0) : coreRun 13 s =
    .next { s with x := permute s.cfg 12 s.x, ridx := 12, phase := .absorbFull } := by
  have hrounds := coreRun_rounds le_rfl (s := s) (congrArg Fin.val hr)
  rw [coreRun_add 12 1 hrounds, coreRun_one, coreStep_phase (Nat.lt_irrefl 12), hp]
  exact exec_init_idle (Nat.lt_irrefl 12)

/-- The events of one complete block, oldest first (R40). -/
def blockEvents (b : Nat) : List Event :=
  [.memRead .msg (32 * b) 8, .memRead .msg (32 * b + 8) 8, .memRead .msg (32 * b + 16) 8, .memRead .msg (32 * b + 24) 8,
    .perm 12]

/-- The events of the final block, oldest first (R40, R95). -/
def finalEvents (len : Nat) : List Event :=
  (if tailLen len = 0 then [] else [.memRead .msg (tailAddr len) (tailLen len)]) ++ [.perm 12]

theorem computationEvents_eq (len : Nat) : computationEvents len =
    [.memRead .key 0 8, .memRead .key 8 8, .perm 12] ++ (List.range (numBlocks len)).flatMap blockEvents ++ finalEvents len :=
  List.append_assoc ..

/-- Reading a block in four chunks or at once is the same (R36, R51). -/
theorem absorbChunks_memRead (S : Words) (m : Memory) (b : Nat) :
    absorbChunks S (memRead m (chunkAddr b 0) 8) (memRead m (chunkAddr b 1) 8) (memRead m (chunkAddr b 2) 8)
      (memRead m (chunkAddr b 3) 8) = absorbBlock S (memRead m (32 * b) 32) := by
  have hchunk (j : Fin 4) : memRead m (chunkAddr b j.val) 8 = blockChunk (memRead m (32 * b) 32) j := by
    refine Vector.ext fun k hk => ?_
    rw [blockChunk_getElem _ j k hk, memRead_getElem, memRead_getElem, chunkAddr, Nat.add_assoc]
  rw [absorbBlock, ← hchunk 0, ← hchunk 1, ← hchunk 2, ← hchunk 3]
  rfl

/-- One complete block: the load and its 12 rounds (T3, T1). -/
theorem coreRun_block {s : State} (hp : s.phase = .absorbFull) (hr : s.ridx = 12) (hb : s.blk < numBlocks s.len) :
    coreRun 13 s = .next { s with
      x := bigAbsorbFull s.cfg s.msg s.blk s.x, blk := s.blk + 1, ridx := 12,
      events := (blockEvents s.blk).reverse ++ s.events } := by
  have hidle := (ridx_eq_twelve_iff _).1 hr
  have hload : coreStep s = .next (loadFullBlock s) := by
    rw [coreStep_phase hidle, hp]
    exact exec_absorbFull_block hidle hb
  have hrun : coreRun 13 s = coreRun 12 (loadFullBlock s) := coreRun_succ 12 hload
  rw [hrun, coreRun_rounds le_rfl (by rw [loadFullBlock_eq]; rfl), loadFullBlock_eq]
  simp only [absorbChunks_memRead]
  rfl

/-- The loop over complete blocks (R94), from the first. -/
theorem coreRun_blocks (n : Nat) {s : State} (hp : s.phase = .absorbFull) (hr : s.ridx = 12) (hb : s.blk = 0)
    (hn : n ≤ numBlocks s.len) : coreRun (13 * n) s = .next { s with
      x := bigAbsorbBlocks s.cfg s.msg n s.x, blk := n, ridx := 12,
      events := ((List.range n).flatMap blockEvents).reverse ++ s.events } := by
  induction n with
  | zero =>
    have hsame : s = { s with blk := 0, ridx := 12 } := by rw [← hb, ← hr]
    exact congrArg Host.Outcome.next hsame
  | succ n ih =>
    rw [Nat.mul_succ, coreRun_add (13 * n) 13 (ih (by omega))]
    refine (coreRun_block ?_ ?_ ?_).trans ?_
    · exact hp
    · rfl
    · exact hn
    simp only [bigAbsorbBlocks, List.range_succ, List.foldl_append, List.foldl_cons, List.foldl_nil, List.flatMap_append,
      List.flatMap_cons, List.flatMap_nil, List.append_nil, List.reverse_append, List.append_assoc]

/-- After the last round: the step into `SQUEEZE`, and the extraction (T5, T6). -/
theorem coreRun_leave {s : State} (hp : s.phase = .absorbFinal) (hr : s.ridx = 12) :
    coreRun 2 s = .next { s with
      tag := tagBytes s.x.x0 s.x.x1, x := Words.zero, buf := Vector.replicate 32 0, phase := .done } := by
  have hidle := (ridx_eq_twelve_iff _).1 hr
  have hleave : coreStep s = .next (s.setPhase .squeeze) := by
    rw [coreStep_phase hidle, hp]
    exact exec_absorbFinal_idle hidle
  rw [coreRun_succ 1 hleave, coreRun_one, coreStep_phase (s := s.setPhase .squeeze) hidle]
  exact execSqueeze_eq (s.setPhase .squeeze)

/-- The final block, its 12 rounds, and the extraction of the tag (T4, T1, T5, T6). -/
theorem coreRun_final {s : State} (hp : s.phase = .absorbFull) (hr : s.ridx = 12) (hb : ¬ s.blk < numBlocks s.len) :
    coreRun 15 s = .next { s with
      tag := bigSqueeze (bigAbsorbFinal s.cfg s.msg s.len s.x), x := Words.zero, buf := Vector.replicate 32 0,
      ridx := 12, phase := .done, events := (finalEvents s.len).reverse ++ s.events } := by
  have hidle := (ridx_eq_twelve_iff _).1 hr
  have hload : coreStep s = .next (loadFinalBlock s) := by
    rw [coreStep_phase hidle, hp]
    exact exec_absorbFull_last hidle hb
  have hrun : coreRun 15 s = coreRun 14 (loadFinalBlock s) := coreRun_succ 14 hload
  have hrounds := coreRun_rounds le_rfl (s := loadFinalBlock s) (by rw [loadFinalBlock_eq]; rfl)
  have hevents : (finalEvents s.len).reverse =
      .perm 12 :: if tailLen s.len = 0 then [] else [.memRead .msg (tailAddr s.len) (tailLen s.len)] := by
    unfold finalEvents
    split <;> rfl
  rw [hrun, coreRun_add 12 2 hrounds, loadFinalBlock_eq, coreRun_leave rfl rfl, hevents]
  rfl

/-- The state at the end of a computation, from the state the command found. -/
def finished (s : State) : State := { s with
  x := Words.zero, phase := .done, blk := numBlocks s.msgLen, ridx := 12, len := s.msgLen,
  buf := Vector.replicate 32 0, tag := computeTag s.cfg s.key s.msg s.msgLen, err := .none,
  events := (computationEvents s.msgLen).reverse ++ s.events }

/-- The stages one after the other (R101). -/
theorem coreRun_computation (s : State) : coreRun (computationSteps s.msgLen) (acceptCommand s) = .next (finished s) := by
  have hsteps : computationSteps s.msgLen = 13 + (13 * numBlocks s.msgLen + 15) := by
    rw [computationSteps]
    omega
  rw [hsteps, acceptCommand_eq, coreRun_add 13 _ (coreRun_init rfl rfl),
    coreRun_add (13 * numBlocks s.msgLen) 15 (coreRun_blocks _ rfl rfl rfl le_rfl), coreRun_final rfl rfl (Nat.lt_irrefl _)]
  simp only [finished, computationEvents_eq, List.reverse_append, List.append_assoc]
  rfl

theorem started_acceptCommand (s : State) : Started (acceptCommand s) := by
  rw [acceptCommand_eq]
  exact ⟨nofun, nofun⟩

/-- An accepted command leaves exactly the steps of one computation (R101). -/
theorem stepsLeft_acceptCommand (s : State) : stepsLeft (acceptCommand s) = computationSteps s.msgLen := by
  rw [acceptCommand_eq, stepsLeft_init rfl, computationSteps]
  simp only [Fin.isValue, Fin.val_zero]
  omega

/-- Until the last of those steps the core is busy. -/
theorem coreRun_busy {s : State} {k : Nat} (hk : k < computationSteps s.msgLen) :
    ∃ u, coreRun k (acceptCommand s) = .next u ∧ u.phase.busy = true := by
  have hleft := stepsLeft_acceptCommand s
  obtain ⟨u, hu, -, hsum⟩ := coreRun_stepsLeft k (started_acceptCommand s) (by omega)
  exact ⟨u, hu, busy_iff_stepsLeft_pos.2 (by omega)⟩

/-- Settles O38: the run ends in `finished s`, whose fields are the claim's. -/
theorem computationEndsInDoneWithTheTag : Obligations.ComputationEndsInDoneWithTheTag := by
  intro s hp hk ht
  exact ⟨acceptCommand s, finished s, exec_computeTag_of_accepted hp hk ht, coreRun_computation s, fun _ => coreRun_busy,
    rfl, rfl, rfl, rfl, rfl, rfl, rfl, rfl, rfl, rfl, rfl, rfl, rfl, rfl, rfl⟩

/-! ### What the run reads and requests -/

/-- One request at the command, one for each complete block, one for the final block (R102). -/
theorem count_perm_computationEvents (len : Nat) : (computationEvents len).count (.perm 12) = len / 32 + 2 := by
  have hblocks (n : Nat) : ((List.range n).flatMap blockEvents).count (.perm 12) = n := by
    induction n with
    | zero => rfl
    | succ n ih =>
      rw [List.range_succ, List.flatMap_append, List.count_append, ih]
      rfl
  have hfinal : (finalEvents len).count (.perm 12) = 1 := by
    unfold finalEvents
    split <;> rfl
  rw [computationEvents_eq, List.count_append, List.count_append, hblocks, hfinal, numBlocks]
  exact Nat.add_right_cancel_iff.2 (Nat.add_comm ..)

/-- Settles O39: the events of `finished s`, and the requests among them. -/
theorem computationReadsAndRequests : Obligations.ComputationReadsAndRequests :=
  fun s hp hk ht => ⟨acceptCommand s, finished s, exec_computeTag_of_accepted hp hk ht, coreRun_computation s, rfl,
    count_perm_computationEvents s.msgLen⟩

/-- The complete blocks read the bytes below `32 · n`, each once, in order (R34, R40). -/
theorem blockEvents_bytesRead_msg (n : Nat) :
    ((List.range n).flatMap blockEvents).flatMap (Event.bytesRead .msg) = List.range (32 * n) := by
  have hblock (b : Nat) : (blockEvents b).flatMap (Event.bytesRead .msg) = (List.range 32).map (32 * b + ·) := by
    simp [blockEvents, Event.bytesRead, List.range_succ, Nat.add_assoc]
  induction n with
  | zero => rfl
  | succ n ih =>
    rw [List.range_succ, List.flatMap_append, List.flatMap_append, ih, List.flatMap_singleton, hblock, Nat.mul_succ,
      List.range_add]

/-- The final block reads the tail (R95). -/
theorem finalEvents_bytesRead_msg (len : Nat) :
    (finalEvents len).flatMap (Event.bytesRead .msg) = (List.range (tailLen len)).map (tailAddr len + ·) := by
  unfold finalEvents
  split
  · next h => rw [h]; rfl
  · simp [Event.bytesRead]

theorem computationEvents_bytesRead_msg (len : Nat) :
    (computationEvents len).flatMap (Event.bytesRead .msg) = List.range len := by
  have hlen : len = 32 * numBlocks len + tailLen len := (Nat.div_add_mod len 32).symm
  rw [computationEvents_eq, List.flatMap_append, List.flatMap_append, blockEvents_bytesRead_msg, finalEvents_bytesRead_msg]
  conv_rhs => rw [hlen, List.range_add]
  rfl

/-- No block reads a key byte. -/
theorem computationEvents_bytesRead_key (len : Nat) :
    (computationEvents len).flatMap (Event.bytesRead .key) = List.range 16 := by
  have hblocks : ((List.range (numBlocks len)).flatMap blockEvents).flatMap (Event.bytesRead .key) = [] := by
    simp [List.flatMap_assoc, blockEvents, Event.bytesRead]
  have hfinal : (finalEvents len).flatMap (Event.bytesRead .key) = [] := by
    unfold finalEvents
    split <;> rfl
  rw [computationEvents_eq, List.flatMap_append, List.flatMap_append, hblocks, hfinal]
  rfl

/-- Settles O40: the same run, its events read byte by byte. -/
theorem eachInputByteIsReadOnceInOrder : Obligations.EachInputByteIsReadOnceInOrder :=
  fun s hp hk ht => ⟨acceptCommand s, finished s, computationEvents s.msgLen, exec_computeTag_of_accepted hp hk ht,
    coreRun_computation s, rfl, rfl, computationEvents_bytesRead_msg _, computationEvents_bytesRead_key _⟩

/-! ### What the tag depends on -/

theorem bigInit_congr (c : Config) {key key' : Memory} (h : ∀ a, a < 16 → key.read a = key'.read a) :
    bigInit c key = bigInit c key' := by
  rw [bigInit, bigInit, memRead_congr (m' := key') (addr := 0) fun k hk => h _ (by omega),
    memRead_congr (m' := key') (addr := 8) fun k hk => h _ (by omega)]

theorem bigAbsorbBlocks_congr (c : Config) {msg msg' : Memory} {n : Nat} (h : ∀ a, a < 32 * n → msg.read a = msg'.read a)
    (S : Words) : bigAbsorbBlocks c msg n S = bigAbsorbBlocks c msg' n S := by
  refine List.foldl_ext _ _ _ fun T b hb => ?_
  have hbn := List.mem_range.1 hb
  rw [bigAbsorbFull, bigAbsorbFull, memRead_congr fun k hk => h _ (by omega)]

theorem finalBlock_congr {msg msg' : Memory} {len : Nat} (h : ∀ a, a < len → msg.read a = msg'.read a) :
    finalBlock msg len = finalBlock msg' len := by
  have htail := Nat.div_add_mod len 32
  rw [finalBlock, finalBlock, memRead_congr fun k hk => h _ ?_]
  rw [tailAddr, numBlocks]
  rw [tailLen] at hk
  omega

/-- Settles O41: every read of the big-step function is within the key and the message. -/
theorem tagDependsOnKeyAndMessageBytesAlone : Obligations.TagDependsOnKeyAndMessageBytesAlone := by
  intro c key key' msg msg' len hkey hmsg
  have hblocks : ∀ a, a < 32 * numBlocks len → msg.read a = msg'.read a := fun a ha =>
    hmsg a (by rw [numBlocks] at ha; omega)
  rw [computeTag, computeTag, bigInit_congr c hkey, bigAbsorbBlocks_congr c hblocks, bigAbsorbFinal, bigAbsorbFinal,
    finalBlock_congr hmsg]

/-! ### Different tails -/

/-- The padding byte shows where the tail ends: a tail is no longer than another with the same padded block. -/
theorem tail_le_of_padBlock_eq {t u : Nat} {v : Vector Byte t} {w : Vector Byte u} (hu : u ≤ 31)
    (h : padBlock t v = padBlock u w) : u ≤ t := by
  by_contra hlt
  have hpad : (padBlock u w)[u] = padByte := by
    rw [padBlock_getElem u w u (by omega), dif_neg (Nat.lt_irrefl u), if_pos rfl]
  have hzero : (padBlock t v)[u] = 0x00 := by
    rw [padBlock_getElem t v u (by omega), dif_neg (by omega), if_neg (by omega)]
  rw [h, hpad] at hzero
  exact absurd hzero (by decide)

/-- The padding is injective on tails (R52). -/
theorem toList_eq_of_padBlock_eq {t u : Nat} {v : Vector Byte t} {w : Vector Byte u} (ht : t ≤ 31) (hu : u ≤ 31)
    (h : padBlock t v = padBlock u w) : v.toList = w.toList := by
  obtain rfl : t = u := Nat.le_antisymm (tail_le_of_padBlock_eq ht h.symm) (tail_le_of_padBlock_eq hu h)
  have hvw : v = w := Vector.ext fun k hk => by
    have hk' := congrArg (fun b : Vector Byte 32 => b[k]) h
    simpa [padBlock_getElem, hk] using hk'
  rw [hvw]

theorem b2w_injective : Function.Injective b2w := Function.LeftInverse.injective w2b_b2w

/-- The four chunks are the block. -/
theorem block_ext {b b' : Vector Byte 32} (h : ∀ j, blockChunk b j = blockChunk b' j) : b = b' := by
  refine Vector.ext fun k hk => ?_
  have hmod : k % 8 < 8 := Nat.mod_lt _ (by decide)
  have hbyte := blockChunk_getElem b ⟨k / 8, by omega⟩ (k % 8) hmod
  have hbyte' := blockChunk_getElem b' ⟨k / 8, by omega⟩ (k % 8) hmod
  simp only [h, Nat.div_add_mod] at hbyte hbyte'
  exact hbyte.symm.trans hbyte'

/-- Into one state, two blocks absorb to the same only if they are the same (R51). -/
theorem absorbBlock_injective (S : Words) : Function.Injective (absorbBlock S) := by
  intro b b' h
  refine block_ext fun j => b2w_injective ?_
  have hj := congrArg (Words.get · j.castSucc) h
  simp only [absorbBlock_get] at hj
  exact (BitVec.xor_right_inj _).1 hj

theorem domainSeparate_injective : Function.Injective domainSeparate := by
  have h : Function.Involutive domainSeparate := fun S => by simp [domainSeparate]
  exact h.injective

/-- Settles O42: padding, absorption, the flip and the last permutation are injective. -/
theorem differentTailsGiveDifferentStates : Obligations.DifferentTailsGiveDifferentStates := by
  intro c S t u v w ht hu hne
  have hload : domainSeparate (absorbBlock S (padBlock t v)) ≠ domainSeparate (absorbBlock S (padBlock u w)) := fun h =>
    hne (toList_eq_of_padBlock_eq ht hu (absorbBlock_injective S (domainSeparate_injective h)))
  exact ⟨hload, fun h => hload (permute_injective c 12 h)⟩

end Sys2Proof.Machine
end
